-- ==== Sys2Proof/Word.lean ====
section
/-! DEFINITION. The bit-vector types of the model: the byte (R8), the nibble (R8, "top nibble", "low nibble") and the
machine word of `W = 32` bits (R7, R13; log entry 1). -/

namespace Sys2Proof

/-- "A byte is 8 bits, a value in 0..255" (R8). -/
abbrev Byte := BitVec 8

/-- A 4-bit field of an opcode byte (R8, R47). -/
abbrev Nibble := BitVec 4

/-- A register slot's value, "a natural number in `0 .. 2^W - 1`" with `W = 32` for this hardware (R7, R13). The width is
the spec's own choice where its source says only "word-sized" (D1): log entry 1. -/
abbrev Word := BitVec 32

end Sys2Proof
end

