-- ==== Sys2Proof/Config.lean ====
section
/-! DEFINITION. The parameters of one run (R7): the configured memory size `M`, debug mode `DEBUG` and the overflow policy
`OVF`. They are fixed for the whole run and no step changes them (R24); a run holds them in its state so that every
statement is made for every value of them (log entry 2). -/

namespace Sys2Proof

/-- The overflow policy `OVF` of add, sub and mul (R7, R75). The source leaves it open and asks for both values to be
tested (D3): it is a parameter here, never a choice of the model (log entry 3). -/
inductive Ovf where
  /-- The exact result modulo `2^W`. -/
  | wrap
  /-- A result outside `0 .. 2^W - 1` raises `Overflow` (R102). -/
  | fault
deriving DecidableEq, Repr

/-- The run parameters of R7 that the host supplies. -/
structure Config where
  /-- `M`, "configured memory size"; it bounds `IP` only (R31, R61). The host's duty `M + 5 < 2^W` (R122) is the type's
  bound: `4294967291 = 2^32 - 5` (log entry 4). -/
  memSize : Fin 4294967291
  /-- `DEBUG`: emit a register snapshot after each step that does not fault (R108). -/
  debug : Bool
  /-- `OVF` (R75). -/
  ovf : Ovf
deriving DecidableEq, Repr

/-- `M` as a natural number. -/
abbrev Config.M (c : Config) : Nat := c.memSize.val

end Sys2Proof
end

