-- ==== Sys2Proof/Syntax.lean ====
section
/-! DEFINITION. The instructions, one constructor per row of spec/opcode_table.json (R50, R58), the register ids (R15), the
decoder's phase (R20) and the assembler's Operation (R55). -/

namespace Sys2Proof

/-- A register id. "Register ids outside 0–15 are not representable" (R15). -/
abbrev RegId := Fin 16

/-- The decoder phase inside a step (R20, R60). -/
inductive Phase where
  /-- No prefix consumed; every step starts and ends here. -/
  | boundary
  /-- A `0x32` prefix has just been consumed. -/
  | afterPrefix
deriving DecidableEq, Repr

/-- The rows of spec/opcode_table.json. A Class B source id is the whole byte, not masked (R45, R90), so that the forms
that raise `InternalFault` are instructions too. -/
inductive Instr where
  /-- PREFIX: the byte `0x32` in phase `Boundary` (R63). -/
  | prefixByte
  /-- MOVI (R77). -/
  | movi (d : RegId) (imm : Word)
  /-- ADDI (R78). -/
  | addi (d : RegId) (imm : Word)
  /-- SUBI (R79). -/
  | subi (d : RegId) (imm : Word)
  /-- MULI (R80). -/
  | muli (d : RegId) (imm : Word)
  /-- DIVI (R81). -/
  | divi (d : RegId) (imm : Word)
  /-- ADD (R84). -/
  | add (d : RegId) (src : Byte)
  /-- SUB (R85). -/
  | sub (d : RegId) (src : Byte)
  /-- MUL (R86). -/
  | mul (d : RegId) (src : Byte)
  /-- DIV (R87). -/
  | div (d : RegId) (src : Byte)
  /-- MOV (R88). -/
  | mov (d : RegId) (src : Byte)
  /-- HALT (R91). -/
  | halt
  /-- RESERVED_C: `0xF1`..`0xFF` (R92). -/
  | reservedC (c : Nibble)
  /-- UNKNOWN_0: `0x00`..`0x0F` (R93). -/
  | unknown0 (x : Nibble)
  /-- UNKNOWN_B: `0xB0`..`0xBF` (R93). -/
  | unknownB (x : Nibble)
  /-- UNKNOWN_C: `0xC0`..`0xCF` (R93). -/
  | unknownC (x : Nibble)
  /-- UNKNOWN_D: `0xD0`..`0xDF` (R93). -/
  | unknownD (x : Nibble)
  /-- UNKNOWN_E: `0xE0`..`0xEF` (R93). -/
  | unknownE (x : Nibble)
deriving DecidableEq, Repr

/-- The encoding class of R43 and R65; `marker` and `none` are the table's formats "prefix" and "none". -/
inductive OpClass where
  | marker | classA | classB | classC | none
deriving DecidableEq, Repr

/-- Each row's `format` in the table. -/
def Instr.opClass : Instr → OpClass
  | .prefixByte => .marker
  | .movi _ _ | .addi _ _ | .subi _ _ | .muli _ _ | .divi _ _ => .classA
  | .add _ _ | .sub _ _ | .mul _ _ | .div _ _ | .mov _ _ => .classB
  | .halt | .reservedC _ => .classC
  | .unknown0 _ | .unknownB _ | .unknownC _ | .unknownD _ | .unknownE _ => .none

/-- Each row's `length` in the table, in bytes (R43; the 6 bytes of Class A include the marker). -/
def Instr.tableLength (i : Instr) : Nat :=
  match i.opClass with
  | .classA => 6
  | .classB => 2
  | .marker | .classC | .none => 1

/-- The assembler's abstract instruction: an 8-bit unsigned opcode and two 32-bit signed operands (R55). -/
structure Operation where
  opcode : Byte
  operand1 : BitVec 32
  operand2 : BitVec 32
deriving DecidableEq, Repr

end Sys2Proof
end

