-- ==== Sys2Proof/Machine/State.lean ====
section
/-! DEFINITION. The state of the block: the 18 register slots (R13), the run status (R19), the decoder phase (R20), the flat
memory image (R28), the run parameters (R7) and the events emitted so far (R97, R108, R127); and the state after reset
(R25). -/

namespace Sys2Proof.Machine

/-- The fault kinds of R96 with the `info` each records. -/
inductive FaultKind where
  /-- "Instruction pointer referencing a byte beyond the loaded image": the address that failed (R98). -/
  | memoryFault (addr : Nat)
  /-- A Class B source id in 16..255: the byte (R100). -/
  | internalFault (src : Byte)
  /-- A divisor of 0 (R101). -/
  | divideByZero
  /-- Under `OVF = Fault`, a result outside `0 .. 2^W - 1` (R102). -/
  | overflow
deriving DecidableEq, Repr

/-- The run status (R19). -/
inductive Status where
  | running
  | halted
  | faulted (kind : FaultKind)
deriving DecidableEq, Repr

/-- The event `UnknownOpcode(p, b)`: the address and the byte (R97). -/
structure Report where
  addr : Word
  byte : Byte
deriving DecidableEq, Repr

/-- The event `Snapshot(R0..R15, IP, SEG)` (R108). -/
structure Snapshot where
  regs : Vector Word 16
  ip : Word
  seg : Word
deriving DecidableEq, Repr

/-- The flat memory image: the backed bytes with their addresses (R28). An address that is not listed is unbacked and has no
value (R29, R30). -/
abbrev Memory := List Host.Cell

/-- The whole state. -/
structure State where
  /-- `R0`..`R15` (R14). -/
  regs : Vector Word 16
  /-- `IP`, the instruction pointer (R17). -/
  ip : Word
  /-- `SEG`, the segment selector (R18). -/
  seg : Word
  /-- The run status (R19). -/
  status : Status
  /-- The decoder phase (R20). -/
  phase : Phase
  /-- `img` (R24, R28). -/
  mem : Memory
  /-- `M`, `DEBUG` and `OVF`, fixed for the run (R24). -/
  cfg : Config
  /-- The `UnknownOpcode` reports emitted so far, oldest first (R127). -/
  reports : List Report
  /-- The debug snapshots emitted so far, oldest first (R127). -/
  snapshots : List Snapshot
deriving DecidableEq, Repr

/-- Why there is no step. No instruction's meaning raises one: only `step` does, in a terminal status. Both are safe: the
spec defines no step there (R59, D21; log entry 7). -/
inductive Fault where
  /-- `status = Halted`: "no step" (R60). Safe. -/
  | noStepFromHalted
  /-- `status = Faulted(kind, info)`: "no step" (R60). Safe. -/
  | noStepFromFaulted (kind : FaultKind)
deriving DecidableEq, Repr

/-- Why an instruction has no meaning. No arm of `exec` answers with it: every instruction is modelled. -/
inductive Refusal where
  /-- The instruction is not modelled yet; raised by an arm of `exec` only. Safe. -/
  | notModelled (mnemonic : String)
deriving DecidableEq, Repr

/-- The parameters that `State.reset` runs under: the largest `M` that the host's duty allows, `DEBUG = false`, and the
spec's default `OVF = Wrap` (D3). A model's choice for the one named reset state (log entry 3). -/
def resetConfig : Config := { memSize := 4294967290, debug := false, ovf := .wrap }

/-- The reset state (R25), with no image loaded (`L = 0`): a program is loaded from outside the block (log entry 5). -/
def State.reset : State :=
  { regs := Vector.replicate 16 0
    ip := 0
    seg := 0
    status := .running
    phase := .boundary
    mem := []
    cfg := resetConfig
    reports := []
    snapshots := [] }

end Sys2Proof.Machine
end

