-- ==== Sys2Proof/Machine/Flags.lean ====
section
/-! DEFINITION. The out-of-range tests of the ALU (R75, R102). The block has no flags, condition codes or predicates (R21), so
no operation stores the answer of one of these: they decide only between a result and `Overflow`. -/

namespace Sys2Proof.Machine

/-- The exact sum is `>= 2^W` (R75). -/
def addOutOfRange (a b : Word) : Bool := 2 ^ 32 ≤ a.toNat + b.toNat

/-- The exact difference is below 0 (R75). -/
def subOutOfRange (a b : Word) : Bool := a.toNat < b.toNat

/-- The exact product is `>= 2^W` (R75). -/
def mulOutOfRange (a b : Word) : Bool := 2 ^ 32 ≤ a.toNat * b.toNat

end Sys2Proof.Machine
end

