-- ==== Sys2Proof/Machine/Alu.lean ====
section
/-! DEFINITION. The ALU functions of R75 on unsigned words (R76): exact results on natural numbers, narrowed at the end. -/

namespace Sys2Proof.Machine

/-- What an ALU function answers: a word, or the fault it raises. -/
inductive AluResult where
  | value (v : Word)
  | raises (k : FaultKind)
deriving DecidableEq, Repr

/-- The exact result `exact` under the overflow policy (R75): `wrapped` is what `Wrap` returns where it is out of range. -/
def underPolicy (ovf : Ovf) (outOfRange : Bool) (inRange wrapped : Nat) : AluResult :=
  match outOfRange, ovf with
  | false, _ => .value (BitVec.ofNat 32 inRange)
  | true, .wrap => .value (BitVec.ofNat 32 wrapped)
  | true, .fault => .raises .overflow

/-- `add_W` (R75). -/
def addW (ovf : Ovf) (a b : Word) : AluResult :=
  underPolicy ovf (addOutOfRange a b) (a.toNat + b.toNat) (a.toNat + b.toNat - 2 ^ 32)

/-- `sub_W` (R75): `a - b`, or `a - b + 2^W` on underflow. -/
def subW (ovf : Ovf) (a b : Word) : AluResult :=
  underPolicy ovf (subOutOfRange a b) (a.toNat - b.toNat) (a.toNat + 2 ^ 32 - b.toNat)

/-- `mul_W` (R75). -/
def mulW (ovf : Ovf) (a b : Word) : AluResult :=
  underPolicy ovf (mulOutOfRange a b) (a.toNat * b.toNat) (a.toNat * b.toNat % 2 ^ 32)

/-- `div_W` (R75): `floor(a / b)`; a zero divisor raises `DivideByZero` under both policies (R76). -/
def divW (a b : Word) : AluResult :=
  if b.toNat = 0 then .raises .divideByZero else .value (BitVec.ofNat 32 (a.toNat / b.toNat))

end Sys2Proof.Machine
end

