-- ==== Sys2Proof/WellFormed.lean ====
section
/-! DEFINITION. Which terms of `Instr` and `Operation` have an encoding. The one `Instr` that has none is RESERVED_C with low
nibble 0, whose byte `0xF0` is HALT (R46, R92). A Class B source byte 16..255 IS encodable (R56, vector TE7). -/

namespace Sys2Proof

/-- The instruction's fields are values its table row admits. -/
def Instr.wellFormed : Instr → Bool
  | .reservedC c => c != 0
  | .prefixByte | .movi _ _ | .addi _ _ | .subi _ _ | .muli _ _ | .divi _ _ | .add _ _ | .sub _ _ | .mul _ _ | .div _ _
  | .mov _ _ | .halt | .unknown0 _ | .unknownB _ | .unknownC _ | .unknownD _ | .unknownE _ => true

/-- The operation's opcode is one of Class A, 1..5 (R55). -/
def Operation.isClassA (op : Operation) : Bool := 1 ≤ op.opcode.toNat && op.opcode.toNat ≤ 5

/-- The operation's opcode is one of Class B, 6..10 (R55). -/
def Operation.isClassB (op : Operation) : Bool := 6 ≤ op.opcode.toNat && op.opcode.toNat ≤ 10

/-- The operation's opcode is one of Class C, `0xF0` and above (R55). -/
def Operation.isClassC (op : Operation) : Bool := 0xF0 ≤ op.opcode.toNat

/-- The `require` lines of R55: the operands the encoder is defined on. -/
def Operation.inDomain (op : Operation) : Bool :=
  if op.isClassA then 0 ≤ op.operand1.toInt && op.operand1.toInt ≤ 15
  else if op.isClassB then
    0 ≤ op.operand1.toInt && op.operand1.toInt ≤ 15 && 0 ≤ op.operand2.toInt && op.operand2.toInt ≤ 255
  else true

end Sys2Proof
end

