-- ==== Sys2Proof/Decode.lean ====
section
/-! DEFINITION. The decoder from bytes to instructions (R42 to R54, R63 to R71), the encoder back (R44 to R46), the
assembler's encoder of Operations (R55, R56), and the reading of an opcode-table row's bits (R58). -/

namespace Sys2Proof

/-! ### Fields (R8, R47) -/

/-- `hi(b) = b[7:4]`, the "top nibble". -/
def hi (b : Byte) : Nibble := b.extractLsb' 4 4

/-- `lo(b) = b[3:0]`, the "low nibble". -/
def lo (b : Byte) : Nibble := b.extractLsb' 0 4

/-- The opcode byte `(h << 4) | l` (R12, R44 to R46). -/
def opcodeByte (h l : Nibble) : Byte := h ++ l

/-- The register id a nibble names: "always a valid id" (R47). -/
def regOfNibble (n : Nibble) : RegId := ⟨n.toNat, n.isLt⟩

/-- The nibble of a register id. -/
def nibbleOfReg (r : RegId) : Nibble := BitVec.ofNat 4 r.val

/-- `le32`: the little-endian reading of four bytes, `b0` at the lowest address (R8, R33, R48). The value is unsigned and is
the operand itself, since `zext_W` is the identity at `W = 32` (log entry 18). -/
def le32 (b0 b1 b2 b3 : Byte) : Word :=
  BitVec.ofNat 32 (b0.toNat + 256 * b1.toNat + 65536 * b2.toNat + 16777216 * b3.toNat)

/-- The four bytes of a 32-bit value, least significant first: the fields `[7:0]`, `[15:8]`, `[23:16]`, `[31:24]` (R44). -/
def bytesLE (u : Word) : List Byte :=
  [u.extractLsb' 0 8, u.extractLsb' 8 8, u.extractLsb' 16 8, u.extractLsb' 24 8]

/-- The marker byte `0x32` (R44, R63). -/
def markerByte : Byte := 0x32#8

/-- The length of the body that an opcode byte starts (R43, R54): 5 for Class A, 2 for Class B, 1 for every other byte. -/
def bodyLength (b : Byte) : Nat :=
  if 1 ≤ (hi b).toNat ∧ (hi b).toNat ≤ 5 then 5 else if 6 ≤ (hi b).toNat ∧ (hi b).toNat ≤ 10 then 2 else 1

/-- The bytes that are decoded as unknown opcodes (R50, R52): top nibble `0x0`, `0xB`..`0xE`, and `0xF1`..`0xFF`. -/
def isUnknownOpcode (b : Byte) : Bool :=
  (hi b).toNat == 0 || (11 ≤ (hi b).toNat && (hi b).toNat ≤ 14) || (hi b == 15 && lo b != 0)

/-! ### The decoder -/

/-- What the decoder answers on the bytes from an address on. -/
inductive DecodeResult where
  /-- An instruction, and the bytes after it. -/
  | ok (i : Instr) (rest : List Byte)
  /-- There is no byte to decode. -/
  | empty
  /-- The operand byte at this offset from the opcode byte is the first one that is not there. -/
  | missing (offset : Nat)
deriving DecidableEq, Repr

/-- Class A (R66): the opcode byte is followed by four immediate bytes. -/
def decodeClassA (mk : RegId → Word → Instr) (b : Byte) : List Byte → DecodeResult
  | i0 :: i1 :: i2 :: i3 :: rest => .ok (mk (regOfNibble (lo b)) (le32 i0 i1 i2 i3)) rest
  | short => .missing (1 + short.length)

/-- Class B (R68): the opcode byte is followed by the source-id byte, "the raw byte at `IP+1` (not masked)". -/
def decodeClassB (mk : RegId → Byte → Instr) (b : Byte) : List Byte → DecodeResult
  | s :: rest => .ok (mk (regOfNibble (lo b)) s) rest
  | [] => .missing 1

/-- Class C (R69): low nibble 0 is HALT, every other is reserved. -/
def decodeClassC (b : Byte) (rest : List Byte) : DecodeResult :=
  if lo b = 0 then .ok .halt rest else .ok (.reservedC (lo b)) rest

/-- The opcode byte classified by its top nibble (R50, R65), the same in both phases; the last line is top nibble `0xF`. -/
def decodeOpcode (b : Byte) (rest : List Byte) : DecodeResult :=
  match (hi b).toNat with
  | 0x0 => .ok (.unknown0 (lo b)) rest
  | 0x1 => decodeClassA .movi b rest
  | 0x2 => decodeClassA .addi b rest
  | 0x3 => decodeClassA .subi b rest
  | 0x4 => decodeClassA .muli b rest
  | 0x5 => decodeClassA .divi b rest
  | 0x6 => decodeClassB .add b rest
  | 0x7 => decodeClassB .sub b rest
  | 0x8 => decodeClassB .mul b rest
  | 0x9 => decodeClassB .div b rest
  | 0xA => decodeClassB .mov b rest
  | 0xB => .ok (.unknownB (lo b)) rest
  | 0xC => .ok (.unknownC (lo b)) rest
  | 0xD => .ok (.unknownD (lo b)) rest
  | 0xE => .ok (.unknownE (lo b)) rest
  | _ => decodeClassC b rest

/-- The decoder by phase (R50, R60): in phase `Boundary` the byte `0x32` is the prefix (R63); in phase `AfterPrefix` every
byte is an opcode byte, a second `0x32` too (R64). -/
def decode (ph : Phase) : List Byte → DecodeResult
  | [] => .empty
  | b :: rest => if ph = .boundary ∧ b = markerByte then .ok .prefixByte rest else decodeOpcode b rest

/-- The instruction a whole step executes: the one the bytes begin with, or the one after its prefix (R54, R59). An offset
of `missing` counts from the opcode byte. -/
def decodeInstr (bs : List Byte) : DecodeResult :=
  match decode .boundary bs with
  | .ok .prefixByte rest => decode .afterPrefix rest
  | r => r

/-! ### The encoder -/

/-- The opcode byte of an instruction, or the marker of PREFIX (R44 to R46, the table's `encoding`). -/
def Instr.firstByte : Instr → Byte
  | .prefixByte => markerByte
  | .movi d _ => opcodeByte 0x1 (nibbleOfReg d)
  | .addi d _ => opcodeByte 0x2 (nibbleOfReg d)
  | .subi d _ => opcodeByte 0x3 (nibbleOfReg d)
  | .muli d _ => opcodeByte 0x4 (nibbleOfReg d)
  | .divi d _ => opcodeByte 0x5 (nibbleOfReg d)
  | .add d _ => opcodeByte 0x6 (nibbleOfReg d)
  | .sub d _ => opcodeByte 0x7 (nibbleOfReg d)
  | .mul d _ => opcodeByte 0x8 (nibbleOfReg d)
  | .div d _ => opcodeByte 0x9 (nibbleOfReg d)
  | .mov d _ => opcodeByte 0xA (nibbleOfReg d)
  | .halt => opcodeByte 0xF 0x0
  | .reservedC c => opcodeByte 0xF c
  | .unknown0 x => opcodeByte 0x0 x
  | .unknownB x => opcodeByte 0xB x
  | .unknownC x => opcodeByte 0xC x
  | .unknownD x => opcodeByte 0xD x
  | .unknownE x => opcodeByte 0xE x

/-- The bytes after the opcode byte: the immediate of Class A, the source id of Class B (R44, R45). -/
def Instr.operandBytes : Instr → List Byte
  | .movi _ imm | .addi _ imm | .subi _ imm | .muli _ imm | .divi _ imm => bytesLE imm
  | .add _ s | .sub _ s | .mul _ s | .div _ s | .mov _ s => [s]
  | .prefixByte | .halt | .reservedC _ | .unknown0 _ | .unknownB _ | .unknownC _ | .unknownD _ | .unknownE _ => []

/-- The body: the instruction's bytes from its opcode byte on (R12, "body"). -/
def encodeBody (i : Instr) : List Byte := i.firstByte :: i.operandBytes

/-- The canonical bytes of an instruction, the table's `encoding` (R43, R58): a Class A body stands after the marker. -/
def encode (i : Instr) : List Byte :=
  match i.opClass with
  | .classA => markerByte :: encodeBody i
  | .marker | .classB | .classC | .none => encodeBody i

/-! ### The assembler's encoder of Operations (host side, R4) -/

/-- `Enc` of R55. `none` is its undefined domain, which a model refuses (D23, log entry 24); `some []` is the "silent
no-op at encode time" of R56. -/
def Operation.encode (op : Operation) : Option (List Byte) :=
  if op.inDomain then
    if op.isClassA then
      some (markerByte :: opcodeByte (lo op.opcode) (op.operand1.extractLsb' 0 4) :: bytesLE op.operand2)
    else if op.isClassB then
      some [opcodeByte (lo op.opcode) (op.operand1.extractLsb' 0 4), op.operand2.extractLsb' 0 8]
    else if op.isClassC then some [op.opcode]
    else some []
  else none

/-- The instruction that an Operation with bytes stands for (R47, R56): its operation, its destination, and its operand as a
32-bit pattern, a byte, or nothing. -/
def Operation.instr (op : Operation) : Option Instr :=
  let d : RegId := regOfNibble (op.operand1.extractLsb' 0 4)
  let s : Byte := op.operand2.extractLsb' 0 8
  if op.inDomain then
    match op.opcode.toNat with
    | 1 => some (.movi d op.operand2)
    | 2 => some (.addi d op.operand2)
    | 3 => some (.subi d op.operand2)
    | 4 => some (.muli d op.operand2)
    | 5 => some (.divi d op.operand2)
    | 6 => some (.add d s)
    | 7 => some (.sub d s)
    | 8 => some (.mul d s)
    | 9 => some (.div d s)
    | 10 => some (.mov d s)
    | 0xF0 => some .halt
    | n => if 0xF0 < n then some (.reservedC (lo op.opcode)) else none
  else none

/-- The Operation that an instruction is written as: for Classes A and B and HALT the row of R57 (D18, log entry 24), where the
operands that R57 writes `-` are 0. DESIGN CHOICE (log entry 30): for RESERVED_C the Operation `0xFc` with operands 0, which `Enc`
maps to its byte (R55), although R57 writes that byte only as `.byte b`, with no Operation. None for PREFIX and for the bytes of
no class. -/
def Operation.ofInstr : Instr → Option Operation
  | .movi d imm => some { opcode := 1, operand1 := BitVec.ofNat 32 d.val, operand2 := imm }
  | .addi d imm => some { opcode := 2, operand1 := BitVec.ofNat 32 d.val, operand2 := imm }
  | .subi d imm => some { opcode := 3, operand1 := BitVec.ofNat 32 d.val, operand2 := imm }
  | .muli d imm => some { opcode := 4, operand1 := BitVec.ofNat 32 d.val, operand2 := imm }
  | .divi d imm => some { opcode := 5, operand1 := BitVec.ofNat 32 d.val, operand2 := imm }
  | .add d s => some { opcode := 6, operand1 := BitVec.ofNat 32 d.val, operand2 := s.setWidth 32 }
  | .sub d s => some { opcode := 7, operand1 := BitVec.ofNat 32 d.val, operand2 := s.setWidth 32 }
  | .mul d s => some { opcode := 8, operand1 := BitVec.ofNat 32 d.val, operand2 := s.setWidth 32 }
  | .div d s => some { opcode := 9, operand1 := BitVec.ofNat 32 d.val, operand2 := s.setWidth 32 }
  | .mov d s => some { opcode := 10, operand1 := BitVec.ofNat 32 d.val, operand2 := s.setWidth 32 }
  | .halt => some { opcode := 0xF0, operand1 := 0, operand2 := 0 }
  | .reservedC c => some { opcode := opcodeByte 0xF c, operand1 := 0, operand2 := 0 }
  | .prefixByte | .unknown0 _ | .unknownB _ | .unknownC _ | .unknownD _ | .unknownE _ => none

/-! ### The rows of spec/opcode_table.json as numbers (log entry 20) -/

/-- The longest instruction, in bytes: prefix and Class A body (R43). -/
def longestInstr : Nat := 6

/-- The row's bytes with byte 0 most significant, as R58 reads `match` and `mask`. -/
def rowBytesHighFirst (nbits w : Nat) : List Byte :=
  (List.range (nbits / 8)).map fun k => BitVec.ofNat 8 (w >>> (8 * (nbits / 8 - 1 - k)))

/-- The row's bytes with byte 0 least significant. -/
def rowBytesLowFirst (nbits w : Nat) : List Byte :=
  (List.range (nbits / 8)).map fun k => BitVec.ofNat 8 (w >>> (8 * k))

/-- The table row that the bytes hold: PREFIX where the row is the marker alone, else the instruction of a step. -/
def decodeRow (bs : List Byte) : DecodeResult :=
  if bs = [markerByte] then decode .boundary bs else decodeInstr bs

/-- The bytes are one table row, whole, with nothing after it. -/
def isWholeRow (bs : List Byte) : Bool :=
  match decodeRow bs with
  | .ok _ [] => true
  | .ok _ (_ :: _) | .empty | .missing _ => false

/-- A row's bytes, in the order in which they lie in memory: in the table's numbering (R58) unless they are a whole row only
with byte 0 least significant. -/
def rowBytes (nbits w : Nat) : List Byte :=
  if isWholeRow (rowBytesHighFirst nbits w) then rowBytesHighFirst nbits w
  else if isWholeRow (rowBytesLowFirst nbits w) then rowBytesLowFirst nbits w
  else rowBytesHighFirst nbits w

/-- The row's bytes followed by zero bytes up to the longest instruction. -/
def tableWordBytes (nbits w : Nat) : List Byte :=
  rowBytes nbits w ++ List.replicate (longestInstr - nbits / 8) 0

/-- The instruction the decoder reads from a table row's bits. -/
def decodeTableWord (nbits w : Nat) : Option Instr :=
  let bs := if nbits ≤ 8 then rowBytes nbits w else tableWordBytes nbits w
  match decodeRow bs with
  | .ok i _ => some i
  | .empty | .missing _ => none

end Sys2Proof
end

