-- ==== Sys2Proof/Machine/Ops.lean ====
section
/-! DEFINITION. The named operations over the image and the register file, raising a fault, the `UnknownOpcode` report and
the debug snapshot. -/

namespace Sys2Proof.Machine

/-! ### The flat memory image -/

/-- `MemRead(a, 1)`: the byte at `a`, or no value where `a` is unbacked (R30). -/
def Memory.read : Memory → Nat → Option Byte
  | [], _ => none
  | (k, b) :: m, a => if a = k then some b else Memory.read m a

/-- The bytes at `a, a+1, ..`, in increasing address order, at most `n` of them and up to the first unbacked one (R10). -/
def Memory.readBytes (m : Memory) : Nat → Nat → List Byte
  | _, 0 => []
  | a, n + 1 =>
    match Memory.read m a with
    | some b => b :: Memory.readBytes m (a + 1) n
    | none => []

/-- Put one byte into the image. Only the host does this, before a run (R122): no instruction writes memory (R41). -/
def Memory.write : Memory → Nat → Byte → Memory
  | [], a, v => [(a, v)]
  | (k, b) :: m, a, v =>
    if a < k then (a, v) :: (k, b) :: m
    else if a = k then (a, v) :: m
    else (k, b) :: Memory.write m a v

/-- Put bytes into the image from address `a` on. -/
def Memory.writeBytes (m : Memory) : Nat → List Byte → Memory
  | _, [] => m
  | a, v :: vs => Memory.writeBytes (Memory.write m a v) (a + 1) vs

/-- The image whose bytes lie at `a, a+1, ..`. -/
def Memory.ofBytesFrom : Nat → List Byte → Memory
  | _, [] => []
  | a, b :: bs => (a, b) :: Memory.ofBytesFrom (a + 1) bs

/-- The image of a byte sequence, "starting at address 0" (R28). -/
def Memory.ofBytes (bs : List Byte) : Memory := Memory.ofBytesFrom 0 bs

/-- The canonical form: addresses strictly rising. An unlisted address reads as no value, so no entry can equal it. -/
abbrev Memory.wf (m : Memory) : Prop := m.Pairwise (fun x y => x.1 < y.1)

/-- The listed addresses are exactly `0 .. L - 1` with `L` the number of bytes, the form of a loaded image (R28, R36). -/
abbrev Memory.isImage (m : Memory) : Prop := m.map Prod.fst = List.range m.length

/-! ### Registers -/

/-- `x[i]` (R9). No general register is hardwired (R14). -/
def State.reg (s : State) (i : RegId) : Word := s.regs[i]

/-- `x[i] <- v` (R9). -/
def State.setReg (s : State) (i : RegId) (v : Word) : State := { s with regs := s.regs.set i v }

/-- `IP <- IP + n`, ending the instruction in phase `Boundary` (R60, R73). -/
def State.advance (s : State) (n : Word) : State := { s with ip := s.ip + n, phase := .boundary }

/-! ### Faults, reports, snapshots -/

/-- `raise K(info)`: the status becomes `Faulted(K, info)`, `IP` stays at `p`, no general register and not `SEG` is written
(R99). `IP` is `p` already: a consumed prefix has moved it (R63). The spec's own choice is D10 (log entry 6). -/
def raise (k : FaultKind) (s : State) : State := { s with status := .faulted k, phase := .boundary }

/-- `report UnknownOpcode(p, b)` with `p = IP`, then `IP <- p + 1` (R92, R93, R97). -/
def reportUnknown (b : Byte) (s : State) : State :=
  State.advance { s with reports := s.reports ++ [{ addr := s.ip, byte := b }] } 1

/-- `status <- Halted; IP <- p` (R91; D8, log entry 12). -/
def haltRun (s : State) : State := { s with status := .halted, phase := .boundary }

/-- The register file as a snapshot shows it (R108). -/
def State.snapshot (s : State) : Snapshot := { regs := s.regs, ip := s.ip, seg := s.seg }

/-- The end of a step: "if DEBUG: emit Snapshot", unless the step faulted (R72, R108). -/
def emitSnapshot (s : State) : State :=
  match s.cfg.debug, s.status with
  | true, .running => { s with snapshots := s.snapshots ++ [s.snapshot] }
  | true, .halted => { s with snapshots := s.snapshots ++ [s.snapshot] }
  | true, .faulted _ => s
  | false, _ => s

/-- The code number of a fault kind (R96; D11, log entry 16). -/
def FaultKind.code : FaultKind → Nat
  | .memoryFault _ => 1
  | .internalFault _ => 2
  | .divideByZero => 3
  | .overflow => 4

end Sys2Proof.Machine
end

