-- ==== Sys2Proof/Machine/Operands.lean ====
section
/-! DEFINITION. The operand forms (R49) and what Classes A and B share: `IP` is the opcode byte's address `p` when an
instruction's meaning starts (R66, R68; log entry 21). -/

namespace Sys2Proof.Machine

/-- The register a Class B source byte names; none for 16..255 (R83, R90). -/
def sourceId (src : Byte) : Option RegId := if h : src.toNat < 16 then some ⟨src.toNat, h⟩ else none

/-- `x[d] <- v; IP <- p + n`, or the fault the operation raises (R66, R68, R99). -/
def writeBack (d : RegId) (n : Word) (r : AluResult) (s : State) : State :=
  match r with
  | .value v => (s.setReg d v).advance n
  | .raises k => raise k s

/-- Class A: the operation's result goes to `Rd`, and the next instruction starts at `p + 5` (R66, R67). -/
def runClassA (d : RegId) (r : AluResult) (s : State) : State := writeBack d 5 r s

/-- Class B: the source-id check comes before any register is read; then the operation on the source's value; the next
instruction starts at `p + 2` (R68, R83). -/
def runClassB (d : RegId) (src : Byte) (f : Word → AluResult) (s : State) : State :=
  match sourceId src with
  | none => raise (.internalFault src) s
  | some r => writeBack d 2 (f (s.reg r)) s

end Sys2Proof.Machine
end

