-- ==== Sys2Proof/Machine/ClassA.lean ====
section
/-! DEFINITION. Class A, register <- immediate (R77 to R81). -/

namespace Sys2Proof.Machine

/-- MOVI: `x[d] <- imm` (R77). -/
def execMovi (d : RegId) (imm : Word) (s : State) : Host.Outcome State Fault Refusal :=
  .next (runClassA d (.value imm) s)

/-- ADDI: `x[d] <- add_W(x[d], imm)` (R78). -/
def execAddi (d : RegId) (imm : Word) (s : State) : Host.Outcome State Fault Refusal :=
  .next (runClassA d (addW s.cfg.ovf (s.reg d) imm) s)

/-- SUBI: `x[d] <- sub_W(x[d], imm)` (R79). -/
def execSubi (d : RegId) (imm : Word) (s : State) : Host.Outcome State Fault Refusal :=
  .next (runClassA d (subW s.cfg.ovf (s.reg d) imm) s)

/-- MULI: `x[d] <- mul_W(x[d], imm)` (R80). -/
def execMuli (d : RegId) (imm : Word) (s : State) : Host.Outcome State Fault Refusal :=
  .next (runClassA d (mulW s.cfg.ovf (s.reg d) imm) s)

/-- DIVI: `x[d] <- div_W(x[d], imm)` (R81). -/
def execDivi (d : RegId) (imm : Word) (s : State) : Host.Outcome State Fault Refusal :=
  .next (runClassA d (divW (s.reg d) imm) s)

end Sys2Proof.Machine
end

