-- ==== Sys2Proof/Machine/ClassB.lean ====
section
/-! DEFINITION. Class B, register <- register (R83 to R90). The destination and the source are read before the write, so
`d = s` needs no case of its own (R89). -/

namespace Sys2Proof.Machine

/-- ADD: `x[d] <- add_W(x[d], x[s])` (R84). -/
def execAdd (d : RegId) (src : Byte) (s : State) : Host.Outcome State Fault Refusal :=
  .next (runClassB d src (addW s.cfg.ovf (s.reg d)) s)

/-- SUB: `x[d] <- sub_W(x[d], x[s])` (R85). -/
def execSub (d : RegId) (src : Byte) (s : State) : Host.Outcome State Fault Refusal :=
  .next (runClassB d src (subW s.cfg.ovf (s.reg d)) s)

/-- MUL: `x[d] <- mul_W(x[d], x[s])` (R86). -/
def execMul (d : RegId) (src : Byte) (s : State) : Host.Outcome State Fault Refusal :=
  .next (runClassB d src (mulW s.cfg.ovf (s.reg d)) s)

/-- DIV: `x[d] <- div_W(x[d], x[s])` (R87). -/
def execDiv (d : RegId) (src : Byte) (s : State) : Host.Outcome State Fault Refusal :=
  .next (runClassB d src (divW (s.reg d)) s)

/-- MOV: `x[d] <- x[s]` (R88). -/
def execMov (d : RegId) (src : Byte) (s : State) : Host.Outcome State Fault Refusal :=
  .next (runClassB d src .value s)

end Sys2Proof.Machine
end

