-- ==== Sys2Proof/Machine/ClassC.lean ====
section
/-! DEFINITION. HALT, the reserved Class C bytes and the bytes of no class (R91 to R94). The byte of a report is the opcode
byte that the instruction's nibbles make (log entry 28). -/

namespace Sys2Proof.Machine

/-- HALT (R91). -/
def execHalt (s : State) : Host.Outcome State Fault Refusal := .next (haltRun s)

/-- RESERVED_C, `0xF1`..`0xFF` (R92). -/
def execReservedC (c : Nibble) (s : State) : Host.Outcome State Fault Refusal :=
  .next (reportUnknown (opcodeByte 0xF c) s)

/-- UNKNOWN_0, `0x00`..`0x0F` (R93). -/
def execUnknown0 (x : Nibble) (s : State) : Host.Outcome State Fault Refusal :=
  .next (reportUnknown (opcodeByte 0x0 x) s)

/-- UNKNOWN_B, `0xB0`..`0xBF` (R93). -/
def execUnknownB (x : Nibble) (s : State) : Host.Outcome State Fault Refusal :=
  .next (reportUnknown (opcodeByte 0xB x) s)

/-- UNKNOWN_C, `0xC0`..`0xCF` (R93). -/
def execUnknownC (x : Nibble) (s : State) : Host.Outcome State Fault Refusal :=
  .next (reportUnknown (opcodeByte 0xC x) s)

/-- UNKNOWN_D, `0xD0`..`0xDF` (R93). -/
def execUnknownD (x : Nibble) (s : State) : Host.Outcome State Fault Refusal :=
  .next (reportUnknown (opcodeByte 0xD x) s)

/-- UNKNOWN_E, `0xE0`..`0xEF` (R93). -/
def execUnknownE (x : Nibble) (s : State) : Host.Outcome State Fault Refusal :=
  .next (reportUnknown (opcodeByte 0xE x) s)

end Sys2Proof.Machine
end

