-- ==== Sys2Proof/Machine/PrefixByte.lean ====
section
/-! DEFINITION. The Class A marker `0x32` in phase `Boundary` (R63). -/

namespace Sys2Proof.Machine

/-- PREFIX: `IP <- IP + 1`, phase `AfterPrefix`, and no other effect (R63, R60). -/
def execPrefixByte (s : State) : Host.Outcome State Fault Refusal :=
  .next { s with ip := s.ip + 1, phase := .afterPrefix }

end Sys2Proof.Machine
end

