-- ==== Sys2Proof/Machine/Dispatch.lean ====
section
/-! DEFINITION. One arm per instruction. -/

namespace Sys2Proof.Machine

/-- The meaning of one instruction, started with `IP` at its opcode byte (at its own byte, for PREFIX). -/
def exec (i : Instr) (s : State) : Host.Outcome State Fault Refusal :=
  match i with
  | .prefixByte => Sys2Proof.Machine.execPrefixByte s
  | .movi d imm => Sys2Proof.Machine.execMovi d imm s
  | .addi d imm => Sys2Proof.Machine.execAddi d imm s
  | .subi d imm => Sys2Proof.Machine.execSubi d imm s
  | .muli d imm => Sys2Proof.Machine.execMuli d imm s
  | .divi d imm => Sys2Proof.Machine.execDivi d imm s
  | .add d src => Sys2Proof.Machine.execAdd d src s
  | .sub d src => Sys2Proof.Machine.execSub d src s
  | .mul d src => Sys2Proof.Machine.execMul d src s
  | .div d src => Sys2Proof.Machine.execDiv d src s
  | .mov d src => Sys2Proof.Machine.execMov d src s
  | .halt => Sys2Proof.Machine.execHalt s
  | .reservedC c => Sys2Proof.Machine.execReservedC c s
  | .unknown0 x => Sys2Proof.Machine.execUnknown0 x s
  | .unknownB x => Sys2Proof.Machine.execUnknownB x s
  | .unknownC x => Sys2Proof.Machine.execUnknownC x s
  | .unknownD x => Sys2Proof.Machine.execUnknownD x s
  | .unknownE x => Sys2Proof.Machine.execUnknownE x s

end Sys2Proof.Machine
end

