-- ==== Sys2Proof/Machine/Fetch.lean ====
section
/-! DEFINITION. Fetching and decoding at `IP`: the bound check, the byte reads and their faults, in the order of R103. -/

namespace Sys2Proof.Machine

/-- What fetching answers: an instruction, or the fault met before one is read. -/
inductive Fetched where
  | instr (i : Instr)
  | raises (k : FaultKind)
deriving DecidableEq, Repr

/-- The bound check `IP <= M` (R61; D9, log entry 13), then the byte at `IP` (R62, R64), then the operand bytes in increasing
address order, the first unbacked one of which raises `MemoryFault` (R82, R83). Reading ahead of a shorter instruction is
unobservable: no read has a side effect (R35). -/
def fetch (s : State) : Fetched :=
  let p := s.ip.toNat
  if s.cfg.M < p then .raises (.memoryFault p)
  else
    match decode s.phase (s.mem.readBytes p 5) with
    | .ok i _ => .instr i
    | .empty => .raises (.memoryFault p)
    | .missing k => .raises (.memoryFault (p + k))

end Sys2Proof.Machine
end

