-- ==== Sys2Proof/Machine/Sequencer.lean ====
section
/-! DEFINITION. The decoder state machine of R60 and the step of R72: at most two transitions, a consumed prefix being the
first of two, then the debug snapshot. -/

namespace Sys2Proof.Machine

/-- One transition of R60 from phase `Boundary` or `AfterPrefix`: fetch, then execute or raise. -/
def transition (s : State) : Host.Outcome State Fault Refusal :=
  match fetch s with
  | .instr i => exec i s
  | .raises k => .next (raise k s)

/-- Continue `o` with `f`. -/
def andThen (o : Host.Outcome State Fault Refusal) (f : State → Host.Outcome State Fault Refusal) :
    Host.Outcome State Fault Refusal :=
  match o with
  | .next t => f t
  | .fault r => .fault r
  | .refused r => .refused r

/-- After a prefix, the same step executes the instruction that follows it (R59, R64). -/
def finishPrefixed (s : State) : Host.Outcome State Fault Refusal :=
  match s.phase with
  | .afterPrefix => transition s
  | .boundary => .next s

/-- `Step()` of R72. A step is defined only when `status = Running` (R59). -/
def runStep (s : State) : Host.Outcome State Fault Refusal :=
  match s.status with
  | .running => andThen (andThen (transition s) finishPrefixed) fun t => .next (emitSnapshot t)
  | .halted => .fault .noStepFromHalted
  | .faulted k => .fault (.noStepFromFaulted k)

end Sys2Proof.Machine
end

