-- ==== Sys2Proof/Machine/Step.lean ====
section
/-! DEFINITION. The step function, and placing one instruction where the next step fetches. -/

namespace Sys2Proof.Machine

/-- One step of the block (R59, R72). -/
def step (s : State) : Host.Outcome State Fault Refusal := runStep s

/-- A table row's bytes, zeros after them, put into the image at `IP`. -/
def State.withFetchWord (s : State) (nbits w : Nat) : State :=
  { s with mem := s.mem.writeBytes s.ip.toNat (tableWordBytes nbits w) }

end Sys2Proof.Machine
end

