-- ==== Sys2Proof/Machine/Loader.lean ====
section
/-! DEFINITION. The host side before a run (R4): the container parse that forms the image (R112 to R118), the serializer
(R119), and the state a run starts from (R111). None of it is part of the block. -/

namespace Sys2Proof.Machine

/-- "FormatError (container parse)" (R118). -/
inductive FormatError where
  | tooShort
  | badMagic
  | badVersion
  | truncatedSegment
deriving DecidableEq, Repr

/-- The code and the data segment (R117). -/
structure Segments where
  code : List Byte
  data : List Byte
deriving DecidableEq, Repr

/-- The magic constant (R113). -/
def containerMagic : List Byte := [0x1E#8, 0x55#8, 0xC6#8, 0xB3#8]

/-- The version constant (R114). -/
def containerVersion : List Byte := [0x00#8, 0x00#8]

/-- `f[a .. a + n - 1]`. -/
def slice (f : List Byte) (a n : Nat) : List Byte := (f.drop a).take n

/-- The file byte at `a`; read only inside the file. -/
def fileByte (f : List Byte) (a : Nat) : Byte := f.getD a 0

/-- The little-endian 32-bit number at `a`, as a natural number, so that `off + len` does not wrap (R116). -/
def fileWord (f : List Byte) (a : Nat) : Nat :=
  (le32 (fileByte f a) (fileByte f (a + 1)) (fileByte f (a + 2)) (fileByte f (a + 3))).toNat

/-- The segment entries, `n` of them from byte `k` on, checked in order (R116), their slices joined in file order (R117). -/
def parseEntries (f : List Byte) : Nat → Nat → Segments → Except FormatError Segments
  | 0, _, acc => .ok acc
  | n + 1, k, acc =>
    if f.length < k + 2 then .error .truncatedSegment
    else
      let ln := (fileByte f (k + 1)).toNat
      if f.length < k + 2 + ln + 8 then .error .truncatedSegment
      else
        let off := fileWord f (k + 2 + ln)
        let len := fileWord f (k + 6 + ln)
        if f.length < off + len then .error .truncatedSegment
        else if fileByte f k ≠ 0 then
          parseEntries f n (k + 10 + ln) { acc with code := acc.code ++ slice f off len }
        else parseEntries f n (k + 10 + ln) { acc with data := acc.data ++ slice f off len }

/-- `parse(f)` (R112 to R117). -/
def parseContainer (f : List Byte) : Except FormatError Segments :=
  if f.length < 32 then .error .tooShort
  else if slice f 0 4 ≠ containerMagic then .error .badMagic
  else if slice f 4 2 ≠ containerVersion then .error .badVersion
  else parseEntries f (fileByte f 8).toNat 9 { code := [], data := [] }

/-- One entry of the segment table: executable byte, name length, name, offset, length (R116). DESIGN CHOICE (log entry 31): an
offset or length of `2^32` or more, for which the spec gives no outcome, is written modulo `2^32`. -/
def serializeEntry (executable : Byte) (name : List Byte) (off len : Nat) : List Byte :=
  executable :: BitVec.ofNat 8 name.length :: name ++ bytesLE (BitVec.ofNat 32 off) ++ bytesLE (BitVec.ofNat 32 len)

/-- The ASCII bytes of `.code` (R119, G3). -/
def codeName : List Byte := [0x2E#8, 0x63#8, 0x6F#8, 0x64#8, 0x65#8]

/-- The ASCII bytes of `.data` (R119, G3). -/
def dataName : List Byte := [0x2E#8, 0x64#8, 0x61#8, 0x74#8, 0x61#8]

/-- `serialize(code, data)` (R119): the code segment's offset is 39, the data segment's `39 + len(code)`. -/
def serializeContainer (c : Segments) : List Byte :=
  containerMagic ++ containerVersion ++ [0x00#8, 0x00#8] ++ [0x02#8]
    ++ serializeEntry 0x01#8 codeName 39 c.code.length
    ++ serializeEntry 0x00#8 dataName (39 + c.code.length) c.data.length
    ++ c.code ++ c.data

/-- The image `code ++ data` (R117). -/
def Segments.image (c : Segments) : Memory := Memory.ofBytes (c.code ++ c.data)

/-- The reset state (R25) of a run with these parameters and this image. -/
def State.start (cfg : Config) (img : Memory) : State := { State.reset with cfg := cfg, mem := img }

/-- A run from a container file (R111): a format error starts no run (R118). -/
def State.boot (cfg : Config) (file : List Byte) : Except FormatError State :=
  match parseContainer file with
  | .ok c => .ok (State.start cfg c.image)
  | .error e => .error e

end Sys2Proof.Machine
end

