-- ==== Sys2Proof/Safety.lean ====
section
/-! DEFINITION. The terms in which statements about runs are made: the invariant of the block, how a run ends, what its end
shows, and what a step leaves alone. -/

namespace Sys2Proof.Machine

/-- The invariant of the block between steps: the phase is `Boundary` (R20), the image is in canonical form and contiguous
from address 0 (R28), `SEG` holds 0 (R18), and `IP` is at most `M + 5` (R23). -/
structure State.Inv (s : State) : Prop where
  phase : s.phase = .boundary
  memWf : s.mem.wf
  memImage : s.mem.isImage
  seg : s.seg = 0
  ip : s.ip.toNat ≤ s.cfg.M + 5

/-- `L`, the length of the flat memory image (R28). -/
abbrev State.L (s : State) : Nat := s.mem.length

/-- A run ends "at the first state whose `status` is not `Running`" (R127). -/
def State.ended (s : State) : Prop := s.status ≠ .running

/-- What the host makes of the end of a run (R121). -/
inductive ExitKind where
  /-- "Normal process exit". -/
  | normal
  /-- "Abnormal termination with a fault-specific diagnostic". -/
  | abnormal (kind : FaultKind)
deriving DecidableEq, Repr

/-- The outcome the host reads from `status`; none while the run goes on (R121, R127). -/
def State.exitKind (s : State) : Option ExitKind :=
  match s.status with
  | .running => none
  | .halted => some .normal
  | .faulted k => some (.abnormal k)

/-- The final observation: `status`, `R0..R15`, `IP`, `SEG`, the reports and, when `DEBUG`, the snapshots (R127). -/
structure Observation where
  status : Status
  regs : Vector Word 16
  ip : Word
  seg : Word
  reports : List Report
  snapshots : List Snapshot
deriving DecidableEq, Repr

/-- What a state shows at the end of a run (R127). -/
def State.observe (s : State) : Observation :=
  { status := s.status, regs := s.regs, ip := s.ip, seg := s.seg, reports := s.reports,
    snapshots := if s.cfg.debug then s.snapshots else [] }

/-- What no instruction and no step changes: the parameters (R24), every byte of memory (R41) and `SEG` (R18). -/
structure State.KeepsFixed (s t : State) : Prop where
  cfg : t.cfg = s.cfg
  mem : t.mem = s.mem
  readByte : ∀ a : Nat, t.mem.read a = s.mem.read a
  seg : t.seg = s.seg

/-- Every general register holds what it held. -/
def State.SameRegs (s t : State) : Prop := ∀ r : RegId, t.reg r = s.reg r

/-- Every general register but `d` holds what it held. -/
def State.SameRegsBut (s t : State) (d : RegId) : Prop := ∀ r : RegId, r ≠ d → t.reg r = s.reg r

/-- No event was emitted. -/
structure State.NoEvent (s t : State) : Prop where
  reports : t.reports = s.reports
  snapshots : t.snapshots = s.snapshots

/-- The frame of an instruction that ends normally and writes `Rd`: everything but `Rd`, `IP` and the phase is unchanged, and
the phase is `Boundary`. -/
structure State.WritesOnly (s t : State) (d : RegId) : Prop where
  fixed : s.KeepsFixed t
  regs : s.SameRegsBut t d
  status : t.status = s.status
  phase : t.phase = .boundary
  events : s.NoEvent t

/-- The frame of an instruction that raises `k` at `IP` (R99): no general register, not `IP`, no event; the status is
`Faulted`. -/
structure State.Raised (s t : State) (k : FaultKind) : Prop where
  fixed : s.KeepsFixed t
  regs : s.SameRegs t
  status : t.status = .faulted k
  ip : t.ip = s.ip
  phase : t.phase = .boundary
  events : s.NoEvent t

/-- `Rd` holds the number `v` afterwards, `IP` has moved by `n` from the opcode byte, and nothing else has changed. -/
structure State.Assigned (s t : State) (d : RegId) (v : Nat) (n : Word) : Prop where
  value : (t.reg d).toNat = v
  ip : t.ip = s.ip + n
  frame : s.WritesOnly t d

/-- A fault with the destination register unchanged, as the rules of the instructions say it. -/
structure State.FaultedKeeping (s t : State) (d : RegId) (k : FaultKind) : Prop where
  status : t.status = .faulted k
  dest : t.reg d = s.reg d

/-- A step starts here (R59) and its first bound check passes (R61). -/
structure State.Ready (s : State) : Prop where
  running : s.status = .running
  phase : s.phase = .boundary
  bound : s.ip.toNat ≤ s.cfg.M

/-- The step from `s` decodes the byte `b` at address `q` as its opcode byte (R60): its first byte, or the one after a prefix,
where the second bound check passes too. -/
def State.OpcodeAt (s : State) (q : Nat) (b : Byte) : Prop :=
  s.Ready ∧ s.mem.read q = some b ∧
    ((q = s.ip.toNat ∧ b ≠ markerByte) ∨ (q = s.ip.toNat + 1 ∧ s.mem.read s.ip.toNat = some markerByte ∧ q ≤ s.cfg.M))

/-- The fetch faults of the Class A operation `h` (R82): the first unbacked immediate byte `a` raises `MemoryFault(a)`, whatever
the operation's own operands are; no register is written and `IP = p`. -/
def ClassAFetchFaults (h : Nat) : Prop :=
  ∀ (s : State) (q k : Nat) (b : Byte), s.OpcodeAt q b → (hi b).toNat = h → 1 ≤ k → k ≤ 4 →
    (∀ j, 1 ≤ j → j < k → (s.mem.read (q + j)).isSome) → s.mem.read (q + k) = none →
    ∃ t, step s = .next t ∧ t.status = .faulted (.memoryFault (q + k)) ∧ s.SameRegs t ∧ t.ip.toNat = q

/-- The fetch fault of the Class B operation `h` (R83): an unbacked source byte raises `MemoryFault(p + 1)`. -/
def ClassBFetchFaults (h : Nat) : Prop :=
  ∀ (s : State) (q : Nat) (b : Byte), s.OpcodeAt q b → (hi b).toNat = h → s.mem.read (q + 1) = none →
    ∃ t, step s = .next t ∧ t.status = .faulted (.memoryFault (q + 1))

/-- The image holds the bytes `bs` at `a, a+1, ..`. -/
def Memory.holds (m : Memory) (a : Nat) (bs : List Byte) : Prop := ∀ k : Nat, k < bs.length → m.read (a + k) = bs[k]?

end Sys2Proof.Machine
end

