-- ==== Sys2Proof/Certificates/Slice0/Obligations.lean ====
section
/-! DEFINITION. The statements for the provers, from the numbered rules of spec/. In every statement about `exec`, `IP` is the
opcode byte's address `p` (log entry 21); the numbers `2 ^ 32` are `2^W` with `W = 32` (R7, log entry 1). -/

open Sys2Proof Sys2Proof.Machine

/-! ### Class A: results, frames, completion -/

/-- R77: "`x[d] <- imm; IP <- p + 5`", from every state; no flag, no other register, no fault of its own. Fetch faults as R82
says. -/
def Obligations.MoviAssignsImmediate : Prop :=
  (∀ (s : State) (d : RegId) (imm : Word),
     encode (.movi d imm) = 0x32#8 :: opcodeByte 1 (nibbleOfReg d) :: bytesLE imm ∧
     ∃ t, exec (.movi d imm) s = .next t ∧ s.Assigned t d imm.toNat 5) ∧
  ClassAFetchFaults 1

/-- R78: "`x[d] <- add_W(x[d], imm); IP <- p + 5`", or `Overflow` "with `Rd` unchanged". Fetch faults as R82 says. -/
def Obligations.AddiAddsImmediate : Prop :=
  (∀ (s : State) (d : RegId) (imm : Word),
     encode (.addi d imm) = 0x32#8 :: opcodeByte 2 (nibbleOfReg d) :: bytesLE imm ∧
     (s.cfg.ovf = .wrap ∨ (s.reg d).toNat + imm.toNat < 2 ^ 32 →
       ∃ t, exec (.addi d imm) s = .next t ∧ s.Assigned t d (((s.reg d).toNat + imm.toNat) % 2 ^ 32) 5) ∧
     (s.cfg.ovf = .fault ∧ 2 ^ 32 ≤ (s.reg d).toNat + imm.toNat →
       ∃ t, exec (.addi d imm) s = .next t ∧ s.FaultedKeeping t d .overflow)) ∧
  ClassAFetchFaults 2

/-- R79: "`x[d] <- sub_W(x[d], imm); IP <- p + 5`", or `Overflow` "with `Rd` unchanged". Fetch faults as R82 says. -/
def Obligations.SubiSubtractsImmediate : Prop :=
  (∀ (s : State) (d : RegId) (imm : Word),
     encode (.subi d imm) = 0x32#8 :: opcodeByte 3 (nibbleOfReg d) :: bytesLE imm ∧
     (imm.toNat ≤ (s.reg d).toNat →
       ∃ t, exec (.subi d imm) s = .next t ∧ s.Assigned t d ((s.reg d).toNat - imm.toNat) 5) ∧
     (s.cfg.ovf = .wrap ∧ (s.reg d).toNat < imm.toNat →
       ∃ t, exec (.subi d imm) s = .next t ∧ s.Assigned t d ((s.reg d).toNat + 2 ^ 32 - imm.toNat) 5) ∧
     (s.cfg.ovf = .fault ∧ (s.reg d).toNat < imm.toNat →
       ∃ t, exec (.subi d imm) s = .next t ∧ s.FaultedKeeping t d .overflow)) ∧
  ClassAFetchFaults 3

/-- R80: "`x[d] <- mul_W(x[d], imm); IP <- p + 5`", or `Overflow` "with `Rd` unchanged". Fetch faults as R82 says. -/
def Obligations.MuliMultipliesByImmediate : Prop :=
  (∀ (s : State) (d : RegId) (imm : Word),
     encode (.muli d imm) = 0x32#8 :: opcodeByte 4 (nibbleOfReg d) :: bytesLE imm ∧
     (s.cfg.ovf = .wrap ∨ (s.reg d).toNat * imm.toNat < 2 ^ 32 →
       ∃ t, exec (.muli d imm) s = .next t ∧ s.Assigned t d ((s.reg d).toNat * imm.toNat % 2 ^ 32) 5) ∧
     (s.cfg.ovf = .fault ∧ 2 ^ 32 ≤ (s.reg d).toNat * imm.toNat →
       ∃ t, exec (.muli d imm) s = .next t ∧ s.FaultedKeeping t d .overflow)) ∧
  ClassAFetchFaults 4

/-- R81: "`x[d] <- div_W(x[d], imm); IP <- p + 5`", or `DivideByZero` when `imm = 0`, "leaving the destination register
unchanged". Fetch faults as R82 says. -/
def Obligations.DiviDividesByImmediate : Prop :=
  (∀ (s : State) (d : RegId) (imm : Word),
     encode (.divi d imm) = 0x32#8 :: opcodeByte 5 (nibbleOfReg d) :: bytesLE imm ∧
     (imm ≠ 0 → ∃ t, exec (.divi d imm) s = .next t ∧ s.Assigned t d ((s.reg d).toNat / imm.toNat) 5) ∧
     (imm = 0 → ∃ t, exec (.divi d imm) s = .next t ∧ s.FaultedKeeping t d .divideByZero)) ∧
  ClassAFetchFaults 5

/-! ### Class B: results, frames, completion -/

/-- R84: "`x[d] <- add_W(x[d], x[s]); IP <- p + 2`", `InternalFault` for `s > 15`, or `Overflow` "with `Rd` unchanged". Fetch
faults as R83 says. -/
def Obligations.AddAddsRegister : Prop :=
  (∀ (s : State) (d r : RegId) (src : Byte),
     encode (.add d src) = [opcodeByte 6 (nibbleOfReg d), src] ∧
     (r.val = src.toNat ∧ (s.cfg.ovf = .wrap ∨ (s.reg d).toNat + (s.reg r).toNat < 2 ^ 32) →
       ∃ t, exec (.add d src) s = .next t ∧ s.Assigned t d (((s.reg d).toNat + (s.reg r).toNat) % 2 ^ 32) 2) ∧
     (r.val = src.toNat ∧ s.cfg.ovf = .fault ∧ 2 ^ 32 ≤ (s.reg d).toNat + (s.reg r).toNat →
       ∃ t, exec (.add d src) s = .next t ∧ s.FaultedKeeping t d .overflow) ∧
     (15 < src.toNat → ∃ t, exec (.add d src) s = .next t ∧ t.status = .faulted (.internalFault src))) ∧
  ClassBFetchFaults 6

/-- R85: "`x[d] <- sub_W(x[d], x[s]); IP <- p + 2`", `InternalFault`, or `Overflow` "with `Rd` unchanged". Fetch faults as R83
says. -/
def Obligations.SubSubtractsRegister : Prop :=
  (∀ (s : State) (d r : RegId) (src : Byte),
     encode (.sub d src) = [opcodeByte 7 (nibbleOfReg d), src] ∧
     (r.val = src.toNat ∧ (s.reg r).toNat ≤ (s.reg d).toNat →
       ∃ t, exec (.sub d src) s = .next t ∧ s.Assigned t d ((s.reg d).toNat - (s.reg r).toNat) 2) ∧
     (r.val = src.toNat ∧ s.cfg.ovf = .wrap ∧ (s.reg d).toNat < (s.reg r).toNat →
       ∃ t, exec (.sub d src) s = .next t ∧ s.Assigned t d ((s.reg d).toNat + 2 ^ 32 - (s.reg r).toNat) 2) ∧
     (r.val = src.toNat ∧ s.cfg.ovf = .fault ∧ (s.reg d).toNat < (s.reg r).toNat →
       ∃ t, exec (.sub d src) s = .next t ∧ s.FaultedKeeping t d .overflow) ∧
     (15 < src.toNat → ∃ t, exec (.sub d src) s = .next t ∧ t.status = .faulted (.internalFault src))) ∧
  ClassBFetchFaults 7

/-- R86: "`x[d] <- mul_W(x[d], x[s]); IP <- p + 2`", `InternalFault`, or `Overflow` "with `Rd` unchanged". Fetch faults as R83
says. -/
def Obligations.MulMultipliesByRegister : Prop :=
  (∀ (s : State) (d r : RegId) (src : Byte),
     encode (.mul d src) = [opcodeByte 8 (nibbleOfReg d), src] ∧
     (r.val = src.toNat ∧ (s.cfg.ovf = .wrap ∨ (s.reg d).toNat * (s.reg r).toNat < 2 ^ 32) →
       ∃ t, exec (.mul d src) s = .next t ∧ s.Assigned t d ((s.reg d).toNat * (s.reg r).toNat % 2 ^ 32) 2) ∧
     (r.val = src.toNat ∧ s.cfg.ovf = .fault ∧ 2 ^ 32 ≤ (s.reg d).toNat * (s.reg r).toNat →
       ∃ t, exec (.mul d src) s = .next t ∧ s.FaultedKeeping t d .overflow) ∧
     (15 < src.toNat → ∃ t, exec (.mul d src) s = .next t ∧ t.status = .faulted (.internalFault src))) ∧
  ClassBFetchFaults 8

/-- R87: "`x[d] <- div_W(x[d], x[s]); IP <- p + 2`", `InternalFault`, or `DivideByZero` when `x[s] = 0`. Fetch faults as R83
says. -/
def Obligations.DivDividesByRegister : Prop :=
  (∀ (s : State) (d r : RegId) (src : Byte),
     encode (.div d src) = [opcodeByte 9 (nibbleOfReg d), src] ∧
     (r.val = src.toNat ∧ s.reg r ≠ 0 →
       ∃ t, exec (.div d src) s = .next t ∧ s.Assigned t d ((s.reg d).toNat / (s.reg r).toNat) 2) ∧
     (r.val = src.toNat ∧ s.reg r = 0 →
       ∃ t, exec (.div d src) s = .next t ∧ s.FaultedKeeping t d .divideByZero) ∧
     (15 < src.toNat → ∃ t, exec (.div d src) s = .next t ∧ t.status = .faulted (.internalFault src))) ∧
  ClassBFetchFaults 9

/-- R88: "`x[d] <- x[s]; IP <- p + 2`", or `InternalFault`; "no arithmetic fault". Fetch faults as R83 says. -/
def Obligations.MovCopiesRegister : Prop :=
  (∀ (s : State) (d r : RegId) (src : Byte),
     encode (.mov d src) = [opcodeByte 10 (nibbleOfReg d), src] ∧
     (r.val = src.toNat → ∃ t, exec (.mov d src) s = .next t ∧ s.Assigned t d (s.reg r).toNat 2) ∧
     (15 < src.toNat → ∃ t, exec (.mov d src) s = .next t ∧ t.status = .faulted (.internalFault src))) ∧
  ClassBFetchFaults 10

/-- R89 (the spec's own inference): with `s = d`, SUB gives 0 under both policies, MOV changes no register, DIV gives 1 or
`DivideByZero`, and under `Wrap` ADD doubles and MUL squares modulo `2^W`; each with its whole frame. What the fault leaves is D10
(log entry 6). -/
def Obligations.SameRegisterOperands : Prop :=
  ∀ (s : State) (d : RegId) (src : Byte), src.toNat = d.val →
    (∃ t, exec (.sub d src) s = .next t ∧ s.Assigned t d 0 2) ∧
    (∃ t, exec (.mov d src) s = .next t ∧ s.Assigned t d (s.reg d).toNat 2 ∧ s.SameRegs t) ∧
    (s.reg d ≠ 0 → ∃ t, exec (.div d src) s = .next t ∧ s.Assigned t d 1 2) ∧
    (s.reg d = 0 → ∃ t, exec (.div d src) s = .next t ∧ s.Raised t .divideByZero) ∧
    (s.cfg.ovf = .wrap →
      (∃ t, exec (.add d src) s = .next t ∧ s.Assigned t d (2 * (s.reg d).toNat % 2 ^ 32) 2) ∧
      (∃ t, exec (.mul d src) s = .next t ∧ s.Assigned t d ((s.reg d).toNat ^ 2 % 2 ^ 32) 2))

/-! ### Class C, unknown bytes, the prefix -/

/-- R91: HALT ends the run with no register mutation. That `IP` stays at the `0xF0` byte is the spec's own decision D8 (log
entry 12). -/
def Obligations.HaltEndsRun : Prop :=
  ∀ s : State, encode .halt = [0xF0#8] ∧
    ∃ t, exec .halt s = .next t ∧ t.status = .halted ∧ t.ip = s.ip ∧ s.SameRegs t ∧ s.KeepsFixed t ∧ s.NoEvent t ∧
      t.phase = .boundary

/-- R92: `0xF1`..`0xFF` report `UnknownOpcode(p, b)` and advance `IP` by 1; no register changes. The encoder emits these bytes for
Operations with these opcodes. -/
def Obligations.ReservedByteReportsAndAdvances : Prop :=
  ∀ (s : State) (c : Nibble), c ≠ 0 →
    encode (.reservedC c) = [BitVec.ofNat 8 (0xF0 + c.toNat)] ∧
    (∀ op : Operation, op.opcode = BitVec.ofNat 8 (0xF0 + c.toNat) → op.encode = some (encode (.reservedC c))) ∧
    ∃ t, exec (.reservedC c) s = .next t ∧
      t.reports = s.reports ++ [{ addr := s.ip, byte := BitVec.ofNat 8 (0xF0 + c.toNat) }] ∧
      t.ip = s.ip + 1 ∧ t.status = s.status ∧ s.SameRegs t ∧ s.KeepsFixed t ∧ t.snapshots = s.snapshots ∧
      t.phase = .boundary

/-- R93: a byte of no class reports `UnknownOpcode(p, b)`; no register changes. The advance of 1 is the spec's own decision D7
(log entry 11). The five instructions are UNKNOWN_0, UNKNOWN_B, UNKNOWN_C, UNKNOWN_D and UNKNOWN_E. -/
def Obligations.NoClassByteReportsAndAdvances : Prop :=
  ∀ (s : State) (x : Nibble) (i : Instr) (h : Nat),
    (i, h) ∈ [(Instr.unknown0 x, 0x00), (Instr.unknownB x, 0xB0), (Instr.unknownC x, 0xC0), (Instr.unknownD x, 0xD0),
      (Instr.unknownE x, 0xE0)] →
    encode i = [BitVec.ofNat 8 (h + x.toNat)] ∧
    ∃ t, exec i s = .next t ∧
      t.reports = s.reports ++ [{ addr := s.ip, byte := BitVec.ofNat 8 (h + x.toNat) }] ∧
      t.ip = s.ip + 1 ∧ t.status = s.status ∧ s.SameRegs t ∧ s.KeepsFixed t ∧ t.snapshots = s.snapshots ∧
      t.phase = .boundary

/-- R63: the prefix sets `IP <- IP + 1`, enters phase `AfterPrefix` and "has no other effect". The reading of `0x32` as a prefix
is the spec's own decision D4 (log entry 9). -/
def Obligations.PrefixOnlyAdvances : Prop :=
  ∀ s : State, ∃ t, exec .prefixByte s = .next t ∧ t.ip = s.ip + 1 ∧ t.phase = .afterPrefix ∧ t.status = s.status ∧
    s.SameRegs t ∧ s.KeepsFixed t ∧ s.NoEvent t

/-! ### Encoding -/

/-- R44: the Class A format. With the marker, opcode byte `op << 4 | d` and four immediate bytes, least significant first, the
step's instruction is the operation `op` on `Rd` and `le32`. -/
def Obligations.ClassAFormat : Prop :=
  ∀ (d : RegId) (i0 i1 i2 i3 : Byte) (rest : List Byte) (op : Nat) (mk : RegId → Word → Instr),
    (op = 1 ∧ mk = .movi) ∨ (op = 2 ∧ mk = .addi) ∨ (op = 3 ∧ mk = .subi) ∨ (op = 4 ∧ mk = .muli) ∨ (op = 5 ∧ mk = .divi) →
    ∃ imm : Word,
      decodeInstr (0x32#8 :: BitVec.ofNat 8 (16 * op + d.val) :: i0 :: i1 :: i2 :: i3 :: rest) = .ok (mk d imm) rest ∧
      imm.toNat = i0.toNat + 256 * i1.toNat + 65536 * i2.toNat + 16777216 * i3.toNat

/-- R45: the Class B format. The opcode byte is `op << 4 | d`; the source id is the whole next byte, "not masked", and the values
16..255 raise `InternalFault`. -/
def Obligations.ClassBFormat : Prop :=
  ∀ (d : RegId) (src : Byte) (rest : List Byte) (op : Nat) (mk : RegId → Byte → Instr),
    (op = 6 ∧ mk = .add) ∨ (op = 7 ∧ mk = .sub) ∨ (op = 8 ∧ mk = .mul) ∨ (op = 9 ∧ mk = .div) ∨ (op = 10 ∧ mk = .mov) →
    decodeInstr (BitVec.ofNat 8 (16 * op + d.val) :: src :: rest) = .ok (mk d src) rest ∧
    (15 < src.toNat → ∀ s, ∃ t, exec (mk d src) s = .next t ∧ t.status = .faulted (.internalFault src))

/-- R46: the Class C format: `0xF0` is HALT, `0xF1`..`0xFF` are reserved, decoded as `UnknownOpcode`. -/
def Obligations.ClassCFormat : Prop :=
  ∀ (c : Nibble) (rest : List Byte),
    decodeInstr (BitVec.ofNat 8 (0xF0 + c.toNat) :: rest) = .ok (if c = 0 then .halt else .reservedC c) rest ∧
    (isUnknownOpcode (BitVec.ofNat 8 (0xF0 + c.toNat)) = true ↔ c ≠ 0)

/-- R50, R67, R71: without a prefix a Class A body of 5 bytes is the same instruction (the spec's decision D6, log entry 10),
unless its opcode byte is the marker (SUBI R2, R51); after a prefix every body decodes as its own instruction (D4, D5). -/
def Obligations.BodyDecodesInBothPhases : Prop :=
  ∀ (i : Instr) (rest : List Byte), i.wellFormed = true → i ≠ .prefixByte →
    decode .afterPrefix (encodeBody i ++ rest) = .ok i rest ∧
    (i.firstByte ≠ markerByte → decode .boundary (encodeBody i ++ rest) = .ok i rest) ∧
    (i.firstByte = markerByte ↔ ∃ imm, i = .subi 2 imm)

/-- Decode and encode agree: the canonical bytes of every well-formed instruction but PREFIX decode back to it, whatever
follows; the byte of PREFIX decodes to PREFIX in phase `Boundary`. -/
def Obligations.DecodeOfEncodeIsInstruction : Prop :=
  ∀ (i : Instr) (rest : List Byte), i.wellFormed = true →
    (i ≠ .prefixByte → decodeInstr (encode i ++ rest) = .ok i rest) ∧
    (i = .prefixByte → decode .boundary (encode i ++ rest) = .ok i rest)

/-- The other direction: whatever the decoder reads is well-formed, and the bytes it read are that instruction's body, so each
byte string has one meaning in each phase. -/
def Obligations.EncodeOfDecodeIsBytes : Prop :=
  ∀ (ph : Phase) (bs rest : List Byte) (i : Instr), decode ph bs = .ok i rest →
    i.wellFormed = true ∧ bs = encodeBody i ++ rest ∧ (i = .prefixByte → ph = .boundary)

/-- R53: "No opcode byte is illegal in the sense of a trap": with four bytes after it every byte decodes, in both phases, and a
body's length is the one R54 gives its opcode byte. -/
def Obligations.EveryOpcodeByteDecodes : Prop :=
  ∀ (b : Byte) (bs : List Byte), 4 ≤ bs.length →
    (∃ i, decode .afterPrefix (b :: bs) = .ok i ((b :: bs).drop (bodyLength b))) ∧
    (b ≠ markerByte → ∃ i, decode .boundary (b :: bs) = .ok i ((b :: bs).drop (bodyLength b)))

/-- R51: the marker is also the opcode byte of SUBI R2, and its canonical form, `32 32 i0 i1 i2 i3`, is executed as SUBI R2. -/
def Obligations.MarkerCollidesWithSubiR2 : Prop :=
  ∀ (imm : Word) (rest : List Byte),
    encode (.subi 2 imm) = 0x32#8 :: 0x32#8 :: bytesLE imm ∧
    decode .boundary (encode (.subi 2 imm) ++ rest) = .ok .prefixByte (0x32#8 :: bytesLE imm ++ rest) ∧
    decode .afterPrefix (0x32#8 :: bytesLE imm ++ rest) = .ok (.subi 2 imm) rest

/-- R125: a stray marker before a prefixed Class A instruction makes the real prefix the opcode byte of SUBI R2, whose immediate
then begins with that instruction's opcode byte; its last immediate byte is left over. -/
def Obligations.StrayMarkerMisaligns : Prop :=
  ∀ (i : Instr) (rest : List Byte), i.opClass = .classA →
    ∃ (imm : Word) (i0 i1 i2 i3 : Byte), i.operandBytes = [i0, i1, i2, i3] ∧
      decodeInstr (0x32#8 :: encode i ++ rest) = .ok (.subi 2 imm) (i3 :: rest) ∧
      imm.toNat = i.firstByte.toNat + 256 * i0.toNat + 65536 * i1.toNat + 16777216 * i2.toNat

/-- Words written out from the spec's examples and the table (R77, R79, R84, R88, R91, R92, R93). -/
def Obligations.ExampleWordsDecode : Prop :=
  decodeInstr [0x32#8, 0x13#8, 0x2A#8, 0x00#8, 0x00#8, 0x00#8] = .ok (.movi 3 42) [] ∧
  decodeInstr [0x32#8, 0x32#8, 0x01#8, 0x00#8, 0x00#8, 0x00#8] = .ok (.subi 2 1) [] ∧
  decodeInstr [0x60#8, 0x01#8] = .ok (.add 0 1) [] ∧
  decodeInstr [0xA7#8, 0x00#8] = .ok (.mov 7 0) [] ∧
  decodeInstr [0xF0#8] = .ok .halt [] ∧
  decodeInstr [0xF5#8] = .ok (.reservedC 5) [] ∧
  decodeInstr [0xB7#8] = .ok (.unknownB 7) []

/-- R56: the Operations of the encoder's domain with bytes: those bytes decode in phase `Boundary` back to the operation, the
destination and the operand. -/
def Obligations.OperationBytesDecodeBack : Prop :=
  ∀ (op : Operation) (bs rest : List Byte), op.encode = some bs → bs ≠ [] →
    ∃ i, op.instr = some i ∧ decodeInstr (bs ++ rest) = .ok i rest ∧ encode i = bs

/-- R56: "Any opcode outside these three ranges encodes to an empty byte sequence". -/
def Obligations.OtherOpcodesEncodeToNothing : Prop :=
  ∀ op : Operation, op.opcode.toNat = 0 ∨ (11 ≤ op.opcode.toNat ∧ op.opcode.toNat ≤ 0xEF) →
    op.encode = some [] ∧ op.instr = none

/-- R55's `require` lines: the encoder is undefined exactly where a Class A or B destination is outside 0..15 or a Class B
`operand2` is outside 0..255 (the spec's own decision D23, log entry 24). -/
def Obligations.EncoderDomain : Prop :=
  ∀ op : Operation, op.encode = none ↔
    (1 ≤ op.opcode.toNat ∧ op.opcode.toNat ≤ 10 ∧ ¬ (0 ≤ op.operand1.toInt ∧ op.operand1.toInt ≤ 15)) ∨
    (6 ≤ op.opcode.toNat ∧ op.opcode.toNat ≤ 10 ∧ ¬ (0 ≤ op.operand2.toInt ∧ op.operand2.toInt ≤ 255))

/-- R57, R55: the Operation that a well-formed instruction is written as encodes to the instruction's canonical bytes and stands for
that instruction; only PREFIX and the bytes of no class have none (the notation is the spec's own decision D18, log entry 24; that
RESERVED_C has one is the model's choice, log entry 30). -/
def Obligations.NotationEncodesToCanonicalBytes : Prop :=
  ∀ i : Instr, i.wellFormed = true →
    (∀ op : Operation, Operation.ofInstr i = some op → op.encode = some (encode i) ∧ op.instr = some i) ∧
    (Operation.ofInstr i = none ↔ i.opClass = .marker ∨ i.opClass = .none)

/-! ### The step -/

/-- R59, R72: where the bytes at `IP` decode to an instruction with no prefix, the step is that instruction's meaning, and then
the snapshot. -/
def Obligations.StepRunsDecodedInstruction : Prop :=
  ∀ (s : State) (i : Instr) (rest : List Byte), s.Ready →
    decode .boundary (s.mem.readBytes s.ip.toNat 5) = .ok i rest → i ≠ .prefixByte →
    ∃ t, exec i s = .next t ∧ step s = .next (emitSnapshot t)

/-- R59, R63, R64, R72: where the byte at `IP` is the prefix and the opcode address passes the second bound check (D9, log entry
13), the same step runs the instruction that follows it, from the state the prefix leaves. -/
def Obligations.StepRunsPrefixedInstruction : Prop :=
  ∀ (s : State) (i : Instr) (rest rest' : List Byte), s.Ready →
    decode .boundary (s.mem.readBytes s.ip.toNat 5) = .ok .prefixByte rest →
    s.ip.toNat + 1 ≤ s.cfg.M → decode .afterPrefix (s.mem.readBytes (s.ip.toNat + 1) 5) = .ok i rest' →
    ∃ u t, exec .prefixByte s = .next u ∧ exec i u = .next t ∧ step s = .next (emitSnapshot t)

/-- The canonical bytes of a well-formed instruction at `IP`, opcode byte within `M`, are executed by one step: Class A with its
prefix, every other instruction without one. -/
def Obligations.StepRunsCanonicalBytes : Prop :=
  ∀ (s : State) (i : Instr), s.Ready → i.wellFormed = true → i ≠ .prefixByte →
    s.mem.holds s.ip.toNat (encode i) →
    (i.opClass ≠ .classA → ∃ t, exec i s = .next t ∧ step s = .next (emitSnapshot t)) ∧
    (i.opClass = .classA → s.ip.toNat + 1 ≤ s.cfg.M →
      ∃ t, exec i { s with ip := s.ip + 1, phase := .afterPrefix } = .next t ∧ step s = .next (emitSnapshot t))

/-- The source's property of R77, as one step on the 6 bytes: `x[d] = V`, "no other register changes", `IP` advanced by 6. -/
def Obligations.StepMoviSetsRegister : Prop :=
  ∀ (s : State) (d : RegId) (imm : Word), s.Ready → s.ip.toNat + 1 ≤ s.cfg.M →
    s.mem.holds s.ip.toNat (0x32#8 :: opcodeByte 1 (nibbleOfReg d) :: bytesLE imm) →
    ∃ t, step s = .next t ∧ t.reg d = imm ∧ s.SameRegsBut t d ∧ t.ip.toNat = s.ip.toNat + 6 ∧ t.status = .running

/-- R59: a step from `Running` ends in phase `Boundary` and answers a next state, whatever the image holds. -/
def Obligations.RunningStepAnswersNext : Prop :=
  ∀ s : State, s.status = .running → ∃ t, step s = .next t ∧ t.phase = .boundary

/-- R59, R60: from `Halted` and from `Faulted` there is no step (the spec's own decision D21, log entry 7). -/
def Obligations.NoStepFromTerminalStatus : Prop :=
  ∀ s : State, (s.status = .halted → step s = .fault .noStepFromHalted) ∧
    (∀ k, s.status = .faulted k → step s = .fault (.noStepFromFaulted k))

/-- R73 (the spec's own inference): the new `IP` of a step whose opcode byte `b` is at `q`: `q` plus the body's length while the
run goes on, `q` itself after HALT or a fault. -/
def Obligations.IpAdvanceOfStep : Prop :=
  ∀ (s t : State) (q : Nat) (b : Byte), s.OpcodeAt q b → step s = .next t →
    (t.status = .running → t.ip.toNat = q + bodyLength b) ∧ (t.status ≠ .running → t.ip.toNat = q)

/-- R73: "Every step that leaves `status = Running` increases `IP` by at least 1", and by at most 6. -/
def Obligations.RunningStepMovesForward : Prop :=
  ∀ s t : State, s.status = .running → step s = .next t → t.status = .running →
    s.ip.toNat + 1 ≤ t.ip.toNat ∧ t.ip.toNat ≤ s.ip.toNat + 6 ∧ s.ip.toNat ≤ s.cfg.M

/-- R126: every run ends, within `M + 2` steps, in a state whose status is not `Running`. -/
def Obligations.EveryRunEnds : Prop :=
  ∀ s : State, s.status = .running →
    ∃ (k : Nat) (t : State), 1 ≤ k ∧ k ≤ s.cfg.M + 2 ∧ Sys2Proof.core.run k s = .next t ∧ t.ended

/-- R23, R18, R20, R28: the invariant of the block is kept by every step. -/
def Obligations.StepKeepsInvariant : Prop :=
  ∀ s t : State, s.Inv → step s = .next t → t.Inv

/-- The invariant holds in every state a run starts from, and in `State.reset`. -/
def Obligations.StartHasInvariant : Prop :=
  (∀ (cfg : Config) (img : List Byte), (State.start cfg (Memory.ofBytes img)).Inv) ∧ State.reset.Inv

/-- R26: "One step writes at most one general register and `IP`, and may change `status`. A faulting step writes no general
register. A HALT step writes no general register, and changes `IP` only by the 1 of a prefix it consumed." -/
def Obligations.StepWritesAtMostOneRegister : Prop :=
  ∀ s t : State, s.status = .running → s.phase = .boundary → step s = .next t →
    (∃ d, s.SameRegsBut t d) ∧ s.KeepsFixed t ∧
    (∀ k, t.status = .faulted k → s.SameRegs t) ∧
    (t.status = .halted → s.SameRegs t ∧
      (t.ip = s.ip ∨ (s.mem.read s.ip.toNat = some markerByte ∧ t.ip = s.ip + 1)))

/-- R24: no step changes `M`, `DEBUG`, `OVF`, and no step writes the image. -/
def Obligations.StepKeepsConfigAndImage : Prop :=
  ∀ s t : State, step s = .next t → t.cfg = s.cfg ∧ t.mem = s.mem ∧ ∀ a, t.mem.read a = s.mem.read a

/-- R18: `SEG` is 0 at reset; no instruction and no step writes it, and none reads it: with another value of `SEG` an instruction
does the same to everything else, and a step does too but for the snapshots, its only observation. -/
def Obligations.SegIsUnused : Prop :=
  State.reset.seg = 0 ∧
  (∀ (i : Instr) (s t : State) (v : Word), exec i s = .next t →
    t.seg = s.seg ∧ exec i { s with seg := v } = .next { t with seg := v }) ∧
  (∀ (s t : State) (v : Word), step s = .next t →
    t.seg = s.seg ∧ ∃ snaps, step { s with seg := v } = .next { t with seg := v, snapshots := snaps })

/-- R108: the snapshot has "no behavioral effect on execution": with `DEBUG` at any value a step does the same to everything but
the snapshots. -/
def Obligations.DebugHasNoEffect : Prop :=
  ∀ (s t : State) (dbg : Bool), step s = .next t →
    ∃ snaps, step { s with cfg := { s.cfg with debug := dbg } } =
      .next { t with cfg := { t.cfg with debug := dbg }, snapshots := snaps }

/-- R108: with `DEBUG` a step emits one snapshot, of the registers after it, unless it faults; without `DEBUG` none (the spec's own
decision D13, log entry 15). -/
def Obligations.SnapshotAfterEachStep : Prop :=
  ∀ s t : State, s.status = .running → step s = .next t →
    t.snapshots = s.snapshots ++
      (if s.cfg.debug = true ∧ (t.status = .running ∨ t.status = .halted) then
        [{ regs := t.regs, ip := t.ip, seg := t.seg }] else [])

/-- R97: a step whose opcode byte is `b` at `q` reports `UnknownOpcode(q, b)` if `b` is an unknown opcode, and nothing else ever (the
event's content is the spec's own decision D20, log entry 15). -/
def Obligations.ReportOfStep : Prop :=
  ∀ (s t : State) (q : Nat) (b : Byte), s.OpcodeAt q b → step s = .next t →
    t.reports = s.reports ++
      (if isUnknownOpcode b = true then [{ addr := BitVec.ofNat 32 q, byte := b }] else []) ∧
    (isUnknownOpcode b = true → t.status = .running ∧ s.SameRegs t)

/-- R110: `Halted` is entered by HALT and by nothing else. -/
def Obligations.HaltedOnlyByHalt : Prop :=
  ∀ s t : State, s.status = .running → step s = .next t →
    (t.status = .halted ↔ ∃ q, s.OpcodeAt q 0xF0#8 ∨
      (s.phase = .afterPrefix ∧ q = s.ip.toNat ∧ q ≤ s.cfg.M ∧ s.mem.read q = some 0xF0#8))

/-! ### Faults -/

/-- R61, R62: `IP > M` (the spec's own decision D9, log entry 13), or a byte at `IP` that is not there, raises `MemoryFault(IP)`
and leaves `IP` at that address and everything else as it was, with no report (R73, R99; the spec's own decision D10, log
entry 6). -/
def Obligations.BoundCheckFaults : Prop :=
  ∀ s : State, s.status = .running → (s.cfg.M < s.ip.toNat ∨ s.mem.read s.ip.toNat = none) →
    ∃ t, step s = .next t ∧ s.Raised t (.memoryFault s.ip.toNat)

/-- R62: the first byte past the image is a `MemoryFault(IP)`. -/
def Obligations.FirstByteUnbackedFaults : Prop :=
  ∀ s : State, s.Ready → s.mem.isImage → s.L ≤ s.ip.toNat →
    ∃ t, step s = .next t ∧ t.status = .faulted (.memoryFault s.ip.toNat)

/-- R61, R64: after a prefix, an opcode address above `M` or unbacked raises `MemoryFault` there, with `IP` at that address (the
spec's own decisions D9 and D10, log entries 13 and 6). -/
def Obligations.OpcodeByteAfterPrefixFaults : Prop :=
  ∀ s : State, s.Ready → s.mem.read s.ip.toNat = some markerByte →
    (s.cfg.M < s.ip.toNat + 1 ∨ s.mem.read (s.ip.toNat + 1) = none) →
    ∃ t, step s = .next t ∧ t.status = .faulted (.memoryFault (s.ip.toNat + 1)) ∧ t.ip.toNat = s.ip.toNat + 1 ∧
      s.SameRegs t ∧ s.KeepsFixed t ∧ s.NoEvent t

/-- R82: a Class A step raises `MemoryFault(a)` at the first unbacked immediate byte `a`, whatever the operation's own operands;
"no register is written and `IP = p`". -/
def Obligations.ImmediateByteUnbackedFaults : Prop :=
  ∀ (s : State) (q k : Nat) (b : Byte), s.OpcodeAt q b → 1 ≤ (hi b).toNat → (hi b).toNat ≤ 5 →
    1 ≤ k → k ≤ 4 → (∀ j, 1 ≤ j → j < k → (s.mem.read (q + j)).isSome) → s.mem.read (q + k) = none →
    ∃ t, step s = .next t ∧ t.status = .faulted (.memoryFault (q + k)) ∧ s.SameRegs t ∧ t.ip.toNat = q

/-- R83: a Class B step raises `MemoryFault(p + 1)` where the source byte is unbacked, and `InternalFault(s)` for `s > 15`: no
register is read or written and `IP = p`. -/
def Obligations.SourceByteFaults : Prop :=
  ∀ (s : State) (q : Nat) (b : Byte), s.OpcodeAt q b → 6 ≤ (hi b).toNat → (hi b).toNat ≤ 10 →
    (s.mem.read (q + 1) = none →
      ∃ t, step s = .next t ∧ t.status = .faulted (.memoryFault (q + 1))) ∧
    (∀ src : Byte, s.mem.read (q + 1) = some src → 15 < src.toNat →
      ∃ t, step s = .next t ∧ t.status = .faulted (.internalFault src) ∧ s.SameRegs t ∧ t.ip.toNat = q ∧
        ∀ rs, step { s with regs := rs } = .next { t with regs := rs })

/-- R96: what raises each fault kind: no instruction's meaning raises `MemoryFault`; `InternalFault` is raised exactly by a Class B
source byte above 15, `DivideByZero` exactly by a divisor of 0, `Overflow` only under `OVF = Fault` and only by add, sub and mul. -/
def Obligations.FaultCausesOfInstructions : Prop :=
  ∀ (i : Instr) (s t : State), s.status = .running → exec i s = .next t →
    (∀ a, t.status ≠ .faulted (.memoryFault a)) ∧
    (∀ src : Byte, t.status = .faulted (.internalFault src) ↔
      15 < src.toNat ∧ ∃ d, i = .add d src ∨ i = .sub d src ∨ i = .mul d src ∨ i = .div d src ∨ i = .mov d src) ∧
    (t.status = .faulted .divideByZero ↔
      (∃ d, i = .divi d 0) ∨ (∃ (d r : RegId) (src : Byte), i = .div d src ∧ r.val = src.toNat ∧ s.reg r = 0)) ∧
    (t.status = .faulted .overflow → s.cfg.ovf = .fault ∧
      ∃ d, (∃ v, i = .addi d v ∨ i = .subi d v ∨ i = .muli d v) ∨ (∃ src, i = .add d src ∨ i = .sub d src ∨ i = .mul d src))

/-- R99: what an instruction's fault leaves: no general register, not `SEG`, not `IP`, no byte of memory and no event. The value of
`IP` and the registers after a fault are the spec's own decision D10 (log entry 6). -/
def Obligations.FaultLeavesStateAlone : Prop :=
  ∀ (i : Instr) (s t : State) (k : FaultKind), s.status = .running → exec i s = .next t → t.status = .faulted k →
    s.Raised t k

/-- R102: under `OVF = Wrap` no step raises `Overflow` (the parameter is the spec's own decision D3, log entry 17). -/
def Obligations.NoOverflowUnderWrap : Prop :=
  ∀ s t : State, s.status = .running → s.cfg.ovf = .wrap → step s = .next t → t.status ≠ .faulted .overflow

/-! ### ALU and memory laws -/

/-- R75, R76: the ALU functions under `Wrap` are exact modulo `2^W`, division is `floor` under both policies, and a zero divisor
raises `DivideByZero`. -/
def Obligations.AluFunctionsUnderWrap : Prop :=
  ∀ a b : Word,
    (∃ v, addW .wrap a b = .value v ∧ v.toNat = (a.toNat + b.toNat) % 2 ^ 32) ∧
    (∃ v, subW .wrap a b = .value v ∧ (v.toNat + b.toNat) % 2 ^ 32 = a.toNat) ∧
    (∃ v, mulW .wrap a b = .value v ∧ v.toNat = a.toNat * b.toNat % 2 ^ 32) ∧
    (b ≠ 0 → ∃ v, divW a b = .value v ∧ v.toNat = a.toNat / b.toNat ∧ v.toNat ≤ a.toNat) ∧
    divW a 0 = .raises .divideByZero

/-- R28, R30: the image of a byte sequence reads as its bytes below `L`, and has no value at or above `L`. -/
def Obligations.ImageReadsItsBytes : Prop :=
  ∀ (img : List Byte) (a : Nat),
    (Memory.ofBytes img).length = img.length ∧
    (∀ h : a < img.length, (Memory.ofBytes img).read a = some img[a]) ∧
    (img.length ≤ a → (Memory.ofBytes img).read a = none)

/-! ### The start of a run -/

/-- R25: the reset state of a run from a container file that parses. -/
def Obligations.BootGivesResetState : Prop :=
  ∀ (cfg : Config) (file : List Byte) (c : Segments), parseContainer file = .ok c →
    ∃ s, State.boot cfg file = .ok s ∧ (∀ r : RegId, s.reg r = 0) ∧ s.ip = 0 ∧ s.seg = 0 ∧ s.status = .running ∧
      s.phase = .boundary ∧ (∀ a, s.mem.read a = (c.code ++ c.data)[a]?) ∧ s.L = (c.code ++ c.data).length ∧
      s.cfg = cfg ∧ s.reports = [] ∧ s.snapshots = []

/-- R112, R113, R114, R118: a file shorter than 32 bytes, with another magic, or with another version, starts no run. The order of
the checks is the spec's own decision D16 (log entry 23). -/
def Obligations.BadContainersStartNoRun : Prop :=
  ∀ (cfg : Config) (file : List Byte),
    (file.length < 32 → State.boot cfg file = .error .tooShort) ∧
    (32 ≤ file.length → file.take 4 ≠ [0x1E#8, 0x55#8, 0xC6#8, 0xB3#8] → State.boot cfg file = .error .badMagic) ∧
    (32 ≤ file.length → file.take 4 = [0x1E#8, 0x55#8, 0xC6#8, 0xB3#8] → (file.drop 4).take 2 ≠ [0x00#8, 0x00#8] →
      State.boot cfg file = .error .badVersion)

/-- R120: `parse(serialize(c, d)) = (c, d)` where every offset and length fits in its 4 bytes. -/
def Obligations.ContainerRoundTrip : Prop :=
  ∀ c : Segments, 39 + c.code.length + c.data.length < 2 ^ 32 → parseContainer (serializeContainer c) = .ok c
end

