-- ==== Sys2Proof/Laws/Decode.lean ====
section
/-! SUPPORT. The laws of the fields, the byte order and the decoder. -/

namespace Sys2Proof

@[simp] theorem hi_opcodeByte (h l : Nibble) : hi (opcodeByte h l) = h := by
  revert h l; decide

@[simp] theorem lo_opcodeByte (h l : Nibble) : lo (opcodeByte h l) = l := by
  revert h l; decide

@[simp] theorem opcodeByte_hi_lo (b : Byte) : opcodeByte (hi b) (lo b) = b := by
  revert b; decide

@[simp] theorem regOfNibble_nibbleOfReg (r : RegId) : regOfNibble (nibbleOfReg r) = r := by
  revert r; decide

@[simp] theorem nibbleOfReg_regOfNibble (n : Nibble) : nibbleOfReg (regOfNibble n) = n := by
  revert n; decide

/-- The little-endian reading of a value's four bytes is the value (R33, R48). -/
@[simp] theorem le32_bytes (u : Word) :
    le32 (u.extractLsb' 0 8) (u.extractLsb' 8 8) (u.extractLsb' 16 8) (u.extractLsb' 24 8) = u := by
  apply BitVec.eq_of_toNat_eq
  have := u.isLt
  simp only [le32, BitVec.extractLsb'_toNat, BitVec.toNat_ofNat, Nat.shiftRight_eq_div_pow]
  omega

/-- The four bytes of a little-endian reading are the bytes read (R33). -/
theorem bytesLE_le32 (b0 b1 b2 b3 : Byte) : bytesLE (le32 b0 b1 b2 b3) = [b0, b1, b2, b3] := by
  have h0 := b0.isLt
  have h1 := b1.isLt
  have h2 := b2.isLt
  have h3 := b3.isLt
  simp only [bytesLE, List.cons.injEq, and_true]
  refine ⟨?_, ?_, ?_, ?_⟩ <;> apply BitVec.eq_of_toNat_eq <;>
    simp only [le32, BitVec.extractLsb'_toNat, BitVec.toNat_ofNat, Nat.shiftRight_eq_div_pow] <;> omega

@[simp] theorem bytesLE_length (u : Word) : (bytesLE u).length = 4 := rfl

/-- A Class A body decodes to its operation, destination and immediate (R66). -/
@[simp] theorem decodeClassA_bytes (mk : RegId → Word → Instr) (b : Byte) (imm : Word) (rest : List Byte) :
    decodeClassA mk b (bytesLE imm ++ rest) = .ok (mk (regOfNibble (lo b)) imm) rest := by
  simp [decodeClassA, bytesLE]

/-- What Class A decoding can answer (R66, R82). -/
theorem decodeClassA_cases (mk : RegId → Word → Instr) (b : Byte) (bs : List Byte) :
    (∃ i0 i1 i2 i3 rest, bs = i0 :: i1 :: i2 :: i3 :: rest ∧
      decodeClassA mk b bs = .ok (mk (regOfNibble (lo b)) (le32 i0 i1 i2 i3)) rest) ∨
    (bs.length < 4 ∧ decodeClassA mk b bs = .missing (1 + bs.length)) := by
  match bs with
  | [] | [_] | [_, _] | [_, _, _] => right; simp [decodeClassA]
  | i0 :: i1 :: i2 :: i3 :: rest => left; exact ⟨i0, i1, i2, i3, rest, rfl, rfl⟩

/-- What Class B decoding can answer (R68, R83). -/
theorem decodeClassB_cases (mk : RegId → Byte → Instr) (b : Byte) (bs : List Byte) :
    (∃ s rest, bs = s :: rest ∧ decodeClassB mk b bs = .ok (mk (regOfNibble (lo b)) s) rest) ∨
    (bs = [] ∧ decodeClassB mk b bs = .missing 1) := by
  match bs with
  | [] => right; exact ⟨rfl, rfl⟩
  | s :: rest => left; exact ⟨s, rest, rfl, rfl⟩

/-- In phase `Boundary` the marker is the prefix (R63). -/
@[simp] theorem decode_marker (rest : List Byte) : decode .boundary (markerByte :: rest) = .ok .prefixByte rest := by
  simp [decode]

/-- In phase `AfterPrefix` every byte is an opcode byte (R64). -/
@[simp] theorem decode_afterPrefix (b : Byte) (rest : List Byte) :
    decode .afterPrefix (b :: rest) = decodeOpcode b rest := by
  simp [decode]

/-- In phase `Boundary` every other byte is an opcode byte (R50). -/
theorem decode_boundary_of_ne (b : Byte) (rest : List Byte) (h : b ≠ markerByte) :
    decode .boundary (b :: rest) = decodeOpcode b rest := by
  simp [decode, h]

/-- An opcode byte decodes to an instruction, or its first missing operand byte is named. -/
theorem decodeOpcode_cases (b : Byte) (bs : List Byte) :
    (∃ i rest, i ≠ .prefixByte ∧ decodeOpcode b bs = .ok i rest) ∨
    (∃ k, 1 ≤ k ∧ k ≤ 4 ∧ decodeOpcode b bs = .missing k) := by
  have hA (mk : RegId → Word → Instr) (hmk : ∀ d v, mk d v ≠ .prefixByte) :
      (∃ i rest, i ≠ .prefixByte ∧ decodeClassA mk b bs = .ok i rest) ∨
      (∃ k, 1 ≤ k ∧ k ≤ 4 ∧ decodeClassA mk b bs = .missing k) := by
    rcases decodeClassA_cases mk b bs with ⟨i0, i1, i2, i3, rest, -, h⟩ | ⟨hl, h⟩
    · exact .inl ⟨_, _, hmk _ _, h⟩
    · exact .inr ⟨_, by omega, by omega, h⟩
  have hB (mk : RegId → Byte → Instr) (hmk : ∀ d v, mk d v ≠ .prefixByte) :
      (∃ i rest, i ≠ .prefixByte ∧ decodeClassB mk b bs = .ok i rest) ∨
      (∃ k, 1 ≤ k ∧ k ≤ 4 ∧ decodeClassB mk b bs = .missing k) := by
    rcases decodeClassB_cases mk b bs with ⟨s, rest, -, h⟩ | ⟨-, h⟩
    · exact .inl ⟨_, _, hmk _ _, h⟩
    · exact .inr ⟨1, by omega, by omega, h⟩
  unfold decodeOpcode
  split <;> first
    | exact hA _ (by simp)
    | exact hB _ (by simp)
    | (left; refine ⟨_, _, ?_, rfl⟩; simp)
    | (left; unfold decodeClassC; split <;> exact ⟨_, _, by simp, rfl⟩)

/-- Decoding without a byte answers that there is none, and only then. -/
theorem decode_eq_empty (ph : Phase) (bs : List Byte) : decode ph bs = .empty ↔ bs = [] := by
  cases bs with
  | nil => simp [decode]
  | cons b rest =>
    rcases decodeOpcode_cases b rest with ⟨i, r, -, h⟩ | ⟨k, -, -, h⟩ <;>
      simp only [decode, h, reduceCtorEq, iff_false] <;> split <;> simp

/-- The prefix is decoded in phase `Boundary` only, from the marker byte only (R63, R64). -/
theorem decode_eq_prefixByte (ph : Phase) (bs rest : List Byte) :
    decode ph bs = .ok .prefixByte rest ↔ ph = .boundary ∧ bs = markerByte :: rest := by
  cases bs with
  | nil => simp [decode]
  | cons b bs =>
    by_cases h : ph = .boundary ∧ b = markerByte
    · obtain ⟨rfl, rfl⟩ := h; simp
    · simp only [decode, if_neg h]
      constructor
      · intro h2
        rcases decodeOpcode_cases b bs with ⟨i, r, hi, h3⟩ | ⟨k, -, -, h3⟩
        · rw [h3] at h2; simp_all
        · rw [h3] at h2; simp at h2
      · rintro ⟨h1, h2⟩; exact absurd ⟨h1, (List.cons.inj h2).1⟩ h

end Sys2Proof
end

