-- ==== Sys2Proof/Laws/State.lean ====
section
/-! SUPPORT. One lemma per field per update of the state, so that no later proof unfolds a record update. -/

namespace Sys2Proof.Machine

/-! ### `setReg` -/

@[simp] theorem setReg_regs (s : State) (d : RegId) (v : Word) : (s.setReg d v).regs = s.regs.set d v := rfl
@[simp] theorem setReg_ip (s : State) (d : RegId) (v : Word) : (s.setReg d v).ip = s.ip := rfl
@[simp] theorem setReg_seg (s : State) (d : RegId) (v : Word) : (s.setReg d v).seg = s.seg := rfl
@[simp] theorem setReg_status (s : State) (d : RegId) (v : Word) : (s.setReg d v).status = s.status := rfl
@[simp] theorem setReg_phase (s : State) (d : RegId) (v : Word) : (s.setReg d v).phase = s.phase := rfl
@[simp] theorem setReg_mem (s : State) (d : RegId) (v : Word) : (s.setReg d v).mem = s.mem := rfl
@[simp] theorem setReg_cfg (s : State) (d : RegId) (v : Word) : (s.setReg d v).cfg = s.cfg := rfl
@[simp] theorem setReg_reports (s : State) (d : RegId) (v : Word) : (s.setReg d v).reports = s.reports := rfl
@[simp] theorem setReg_snapshots (s : State) (d : RegId) (v : Word) : (s.setReg d v).snapshots = s.snapshots := rfl

/-! ### `advance` -/

@[simp] theorem advance_regs (s : State) (n : Word) : (s.advance n).regs = s.regs := rfl
@[simp] theorem advance_ip (s : State) (n : Word) : (s.advance n).ip = s.ip + n := rfl
@[simp] theorem advance_seg (s : State) (n : Word) : (s.advance n).seg = s.seg := rfl
@[simp] theorem advance_status (s : State) (n : Word) : (s.advance n).status = s.status := rfl
@[simp] theorem advance_phase (s : State) (n : Word) : (s.advance n).phase = .boundary := rfl
@[simp] theorem advance_mem (s : State) (n : Word) : (s.advance n).mem = s.mem := rfl
@[simp] theorem advance_cfg (s : State) (n : Word) : (s.advance n).cfg = s.cfg := rfl
@[simp] theorem advance_reports (s : State) (n : Word) : (s.advance n).reports = s.reports := rfl
@[simp] theorem advance_snapshots (s : State) (n : Word) : (s.advance n).snapshots = s.snapshots := rfl

/-! ### `raise` -/

@[simp] theorem raise_regs (k : FaultKind) (s : State) : (raise k s).regs = s.regs := rfl
@[simp] theorem raise_ip (k : FaultKind) (s : State) : (raise k s).ip = s.ip := rfl
@[simp] theorem raise_seg (k : FaultKind) (s : State) : (raise k s).seg = s.seg := rfl
@[simp] theorem raise_status (k : FaultKind) (s : State) : (raise k s).status = .faulted k := rfl
@[simp] theorem raise_phase (k : FaultKind) (s : State) : (raise k s).phase = .boundary := rfl
@[simp] theorem raise_mem (k : FaultKind) (s : State) : (raise k s).mem = s.mem := rfl
@[simp] theorem raise_cfg (k : FaultKind) (s : State) : (raise k s).cfg = s.cfg := rfl
@[simp] theorem raise_reports (k : FaultKind) (s : State) : (raise k s).reports = s.reports := rfl
@[simp] theorem raise_snapshots (k : FaultKind) (s : State) : (raise k s).snapshots = s.snapshots := rfl

/-! ### `haltRun` -/

@[simp] theorem haltRun_regs (s : State) : (haltRun s).regs = s.regs := rfl
@[simp] theorem haltRun_ip (s : State) : (haltRun s).ip = s.ip := rfl
@[simp] theorem haltRun_seg (s : State) : (haltRun s).seg = s.seg := rfl
@[simp] theorem haltRun_status (s : State) : (haltRun s).status = .halted := rfl
@[simp] theorem haltRun_phase (s : State) : (haltRun s).phase = .boundary := rfl
@[simp] theorem haltRun_mem (s : State) : (haltRun s).mem = s.mem := rfl
@[simp] theorem haltRun_cfg (s : State) : (haltRun s).cfg = s.cfg := rfl
@[simp] theorem haltRun_reports (s : State) : (haltRun s).reports = s.reports := rfl
@[simp] theorem haltRun_snapshots (s : State) : (haltRun s).snapshots = s.snapshots := rfl

/-! ### `reportUnknown` -/

@[simp] theorem reportUnknown_regs (b : Byte) (s : State) : (reportUnknown b s).regs = s.regs := rfl
@[simp] theorem reportUnknown_ip (b : Byte) (s : State) : (reportUnknown b s).ip = s.ip + 1 := rfl
@[simp] theorem reportUnknown_seg (b : Byte) (s : State) : (reportUnknown b s).seg = s.seg := rfl
@[simp] theorem reportUnknown_status (b : Byte) (s : State) : (reportUnknown b s).status = s.status := rfl
@[simp] theorem reportUnknown_phase (b : Byte) (s : State) : (reportUnknown b s).phase = .boundary := rfl
@[simp] theorem reportUnknown_mem (b : Byte) (s : State) : (reportUnknown b s).mem = s.mem := rfl
@[simp] theorem reportUnknown_cfg (b : Byte) (s : State) : (reportUnknown b s).cfg = s.cfg := rfl
@[simp] theorem reportUnknown_reports (b : Byte) (s : State) : (reportUnknown b s).reports = s.reports ++ [{ addr := s.ip, byte := b }] := rfl
@[simp] theorem reportUnknown_snapshots (b : Byte) (s : State) : (reportUnknown b s).snapshots = s.snapshots := rfl

/-! ### `withFetchWord` -/

@[simp] theorem withFetchWord_regs (s : State) (n w : Nat) : (s.withFetchWord n w).regs = s.regs := rfl
@[simp] theorem withFetchWord_ip (s : State) (n w : Nat) : (s.withFetchWord n w).ip = s.ip := rfl
@[simp] theorem withFetchWord_seg (s : State) (n w : Nat) : (s.withFetchWord n w).seg = s.seg := rfl
@[simp] theorem withFetchWord_status (s : State) (n w : Nat) : (s.withFetchWord n w).status = s.status := rfl
@[simp] theorem withFetchWord_phase (s : State) (n w : Nat) : (s.withFetchWord n w).phase = s.phase := rfl
@[simp] theorem withFetchWord_mem (s : State) (n w : Nat) : (s.withFetchWord n w).mem = s.mem.writeBytes s.ip.toNat (tableWordBytes n w) := rfl
@[simp] theorem withFetchWord_cfg (s : State) (n w : Nat) : (s.withFetchWord n w).cfg = s.cfg := rfl
@[simp] theorem withFetchWord_reports (s : State) (n w : Nat) : (s.withFetchWord n w).reports = s.reports := rfl
@[simp] theorem withFetchWord_snapshots (s : State) (n w : Nat) : (s.withFetchWord n w).snapshots = s.snapshots := rfl

/-! ### `start` -/

@[simp] theorem start_regs (cfg : Config) (img : Memory) : (State.start cfg img).regs = Vector.replicate 16 0 := rfl
@[simp] theorem start_ip (cfg : Config) (img : Memory) : (State.start cfg img).ip = 0 := rfl
@[simp] theorem start_seg (cfg : Config) (img : Memory) : (State.start cfg img).seg = 0 := rfl
@[simp] theorem start_status (cfg : Config) (img : Memory) : (State.start cfg img).status = .running := rfl
@[simp] theorem start_phase (cfg : Config) (img : Memory) : (State.start cfg img).phase = .boundary := rfl
@[simp] theorem start_mem (cfg : Config) (img : Memory) : (State.start cfg img).mem = img := rfl
@[simp] theorem start_cfg (cfg : Config) (img : Memory) : (State.start cfg img).cfg = cfg := rfl
@[simp] theorem start_reports (cfg : Config) (img : Memory) : (State.start cfg img).reports = [] := rfl
@[simp] theorem start_snapshots (cfg : Config) (img : Memory) : (State.start cfg img).snapshots = [] := rfl

/-! ### `emitSnapshot` -/

@[simp] theorem emitSnapshot_regs (s : State) : (emitSnapshot s).regs = s.regs := by
  unfold emitSnapshot; split <;> rfl
@[simp] theorem emitSnapshot_ip (s : State) : (emitSnapshot s).ip = s.ip := by
  unfold emitSnapshot; split <;> rfl
@[simp] theorem emitSnapshot_seg (s : State) : (emitSnapshot s).seg = s.seg := by
  unfold emitSnapshot; split <;> rfl
@[simp] theorem emitSnapshot_status (s : State) : (emitSnapshot s).status = s.status := by
  unfold emitSnapshot; split <;> rfl
@[simp] theorem emitSnapshot_phase (s : State) : (emitSnapshot s).phase = s.phase := by
  unfold emitSnapshot; split <;> rfl
@[simp] theorem emitSnapshot_mem (s : State) : (emitSnapshot s).mem = s.mem := by
  unfold emitSnapshot; split <;> rfl
@[simp] theorem emitSnapshot_cfg (s : State) : (emitSnapshot s).cfg = s.cfg := by
  unfold emitSnapshot; split <;> rfl
@[simp] theorem emitSnapshot_reports (s : State) : (emitSnapshot s).reports = s.reports := by
  unfold emitSnapshot; split <;> rfl

/-- Without `DEBUG` no snapshot is emitted (R108). -/
theorem emitSnapshot_of_debug_false (s : State) (h : s.cfg.debug = false) : emitSnapshot s = s := by
  simp [emitSnapshot, h]

/-- With `DEBUG`, a state that is not faulted appends its snapshot (R108). -/
theorem emitSnapshot_snapshots_of_debug (s : State) (h : s.cfg.debug = true) (hf : ∀ k, s.status ≠ .faulted k) :
    (emitSnapshot s).snapshots = s.snapshots ++ [s.snapshot] := by
  unfold emitSnapshot
  split <;> simp_all

/-- A faulted state emits none (R108). -/
theorem emitSnapshot_of_faulted (s : State) (k : FaultKind) (h : s.status = .faulted k) : emitSnapshot s = s := by
  unfold emitSnapshot
  split <;> simp_all

/-! ### Reading a register -/

/-- A register write is read back, and every other register keeps its value (R9). -/
theorem reg_setReg (s : State) (d r : RegId) (v : Word) : (s.setReg d v).reg r = if r = d then v else s.reg r := by
  simp [State.reg, State.setReg, Vector.getElem_set, Fin.ext_iff, eq_comm]

@[simp] theorem reg_setReg_self (s : State) (d : RegId) (v : Word) : (s.setReg d v).reg d = v := by simp [reg_setReg]

@[simp] theorem reg_advance (s : State) (n : Word) (r : RegId) : (s.advance n).reg r = s.reg r := rfl

@[simp] theorem reg_raise (k : FaultKind) (s : State) (r : RegId) : (raise k s).reg r = s.reg r := rfl

@[simp] theorem reg_haltRun (s : State) (r : RegId) : (haltRun s).reg r = s.reg r := rfl

@[simp] theorem reg_reportUnknown (b : Byte) (s : State) (r : RegId) : (reportUnknown b s).reg r = s.reg r := rfl

@[simp] theorem reg_emitSnapshot (s : State) (r : RegId) : (emitSnapshot s).reg r = s.reg r := by simp [State.reg]

end Sys2Proof.Machine
end

