-- ==== Sys2Proof/Laws/Ops.lean ====
section
/-! SUPPORT. One lemma for each shared operation of the ALU and of the operand forms, saying everything it can do. -/

namespace Sys2Proof.Machine

/-! ### The ALU (R75, R76) -/

/-- `add_W` where no overflow is raised: the exact sum modulo `2^W`. -/
theorem addW_value (ovf : Ovf) (a b : Word) (h : ovf = .wrap ∨ a.toNat + b.toNat < 2 ^ 32) :
    addW ovf a b = .value (a + b) := by
  have ha := a.isLt
  have hb := b.isLt
  by_cases ho : 2 ^ 32 ≤ a.toNat + b.toNat
  · obtain rfl : ovf = .wrap := by rcases h with h | h; exacts [h, by omega]
    simp only [addW, underPolicy, addOutOfRange, ho, decide_true, AluResult.value.injEq]
    apply BitVec.eq_of_toNat_eq
    simp only [BitVec.toNat_ofNat, BitVec.toNat_add]
    omega
  · simp only [addW, underPolicy, addOutOfRange, ho, decide_false, AluResult.value.injEq]
    apply BitVec.eq_of_toNat_eq
    simp only [BitVec.toNat_ofNat, BitVec.toNat_add]

/-- `add_W` raises `Overflow`. -/
theorem addW_raises (a b : Word) (h : 2 ^ 32 ≤ a.toNat + b.toNat) : addW .fault a b = .raises .overflow := by
  simp only [addW, underPolicy, addOutOfRange, h, decide_true]

/-- `sub_W` where no underflow is raised: the exact difference modulo `2^W`. -/
theorem subW_value (ovf : Ovf) (a b : Word) (h : ovf = .wrap ∨ b.toNat ≤ a.toNat) : subW ovf a b = .value (a - b) := by
  have ha := a.isLt
  have hb := b.isLt
  by_cases ho : a.toNat < b.toNat
  · obtain rfl : ovf = .wrap := by rcases h with h | h; exacts [h, by omega]
    simp only [subW, underPolicy, subOutOfRange, ho, decide_true, AluResult.value.injEq]
    apply BitVec.eq_of_toNat_eq
    simp only [BitVec.toNat_ofNat, BitVec.toNat_sub]
    omega
  · simp only [subW, underPolicy, subOutOfRange, ho, decide_false, AluResult.value.injEq]
    apply BitVec.eq_of_toNat_eq
    simp only [BitVec.toNat_ofNat, BitVec.toNat_sub]
    omega

/-- `sub_W` raises `Overflow`. -/
theorem subW_raises (a b : Word) (h : a.toNat < b.toNat) : subW .fault a b = .raises .overflow := by
  simp only [subW, underPolicy, subOutOfRange, h, decide_true]

/-- `mul_W` where no overflow is raised: the exact product modulo `2^W`. -/
theorem mulW_value (ovf : Ovf) (a b : Word) (h : ovf = .wrap ∨ a.toNat * b.toNat < 2 ^ 32) :
    mulW ovf a b = .value (a * b) := by
  by_cases ho : 2 ^ 32 ≤ a.toNat * b.toNat
  · obtain rfl : ovf = .wrap := by rcases h with h | h; exacts [h, by omega]
    simp only [mulW, underPolicy, mulOutOfRange, ho, decide_true, AluResult.value.injEq]
    apply BitVec.eq_of_toNat_eq
    simp only [BitVec.toNat_ofNat, BitVec.toNat_mul, Nat.mod_mod]
  · simp only [mulW, underPolicy, mulOutOfRange, ho, decide_false, AluResult.value.injEq]
    apply BitVec.eq_of_toNat_eq
    simp only [BitVec.toNat_ofNat, BitVec.toNat_mul]

/-- `mul_W` raises `Overflow`. -/
theorem mulW_raises (a b : Word) (h : 2 ^ 32 ≤ a.toNat * b.toNat) : mulW .fault a b = .raises .overflow := by
  simp only [mulW, underPolicy, mulOutOfRange, h, decide_true]

/-- `div_W` with a divisor that is not 0: the integer quotient. -/
theorem divW_value (a b : Word) (h : b ≠ 0) : divW a b = .value (a / b) := by
  have hb : b.toNat ≠ 0 := fun hb => h (BitVec.eq_of_toNat_eq hb)
  simp only [divW, hb, if_false, AluResult.value.injEq]
  apply BitVec.eq_of_toNat_eq
  have : a.toNat / b.toNat < 2 ^ 32 := lt_of_le_of_lt (Nat.div_le_self _ _) a.isLt
  simp only [BitVec.toNat_ofNat, BitVec.toNat_udiv, Nat.mod_eq_of_lt this]

/-- `div_W` by 0. -/
@[simp] theorem divW_zero (a : Word) : divW a 0 = .raises .divideByZero := rfl

/-! ### Operand forms -/

/-- A source byte below 16 names a register. -/
theorem sourceId_of_lt (src : Byte) (h : src.toNat < 16) : sourceId src = some ⟨src.toNat, h⟩ := by simp [sourceId, h]

/-- A source byte from 16 on names none (R83). -/
theorem sourceId_of_ge (src : Byte) (h : 16 ≤ src.toNat) : sourceId src = none := by
  simp [sourceId, Nat.not_lt.mpr h]

/-- The byte of a register id names that register. -/
@[simp] theorem sourceId_ofReg (r : RegId) : sourceId (BitVec.ofNat 8 r.val) = some r := by revert r; decide

/-- `writeBack` writes the value and moves `IP`, or raises. -/
theorem writeBack_cases (d : RegId) (n : Word) (r : AluResult) (s : State) :
    (∃ v, r = .value v ∧ writeBack d n r s = (s.setReg d v).advance n) ∨
    (∃ k, r = .raises k ∧ writeBack d n r s = raise k s) := by
  cases r with
  | value v => exact .inl ⟨v, rfl, rfl⟩
  | raises k => exact .inr ⟨k, rfl, rfl⟩

/-- A Class B instruction raises `InternalFault`, or runs its operation on the source's value (R68, R83). -/
theorem runClassB_cases (d : RegId) (src : Byte) (f : Word → AluResult) (s : State) :
    (16 ≤ src.toNat ∧ runClassB d src f s = raise (.internalFault src) s) ∨
    (∃ r : RegId, r.val = src.toNat ∧ runClassB d src f s = writeBack d 2 (f (s.reg r)) s) := by
  by_cases h : src.toNat < 16
  · exact .inr ⟨⟨src.toNat, h⟩, rfl, by simp [runClassB, sourceId_of_lt src h]⟩
  · exact .inl ⟨by omega, by simp [runClassB, sourceId_of_ge src (by omega)]⟩

/-- Class B on a source byte that names a register. -/
theorem runClassB_ofReg (d r : RegId) (f : Word → AluResult) (s : State) :
    runClassB d (BitVec.ofNat 8 r.val) f s = writeBack d 2 (f (s.reg r)) s := by
  simp [runClassB]

/-- Moving `IP` by a small amount from an address the bound check admits does not wrap (R17, R122). -/
theorem ip_add_toNat (s : State) (n : Word) (h : s.ip.toNat ≤ s.cfg.M) (hn : n.toNat ≤ 5) :
    (s.ip + n).toNat = s.ip.toNat + n.toNat := by
  have hM : s.cfg.M < 4294967291 := s.cfg.memSize.isLt
  rw [BitVec.toNat_add]
  omega

end Sys2Proof.Machine
end

