-- ==== Sys2Proof/Laws/Frames.lean ====
section
/-! SUPPORT. The frames of the shared operations: what each leaves alone, in the terms of Safety.lean. -/

namespace Sys2Proof.Machine

/-- A state whose parameters, image and `SEG` are the old ones keeps them. -/
theorem keepsFixed_of_eq (s t : State) (hc : t.cfg = s.cfg) (hm : t.mem = s.mem) (hs : t.seg = s.seg) : s.KeepsFixed t :=
  ⟨hc, hm, fun a => by rw [hm], hs⟩

theorem keepsFixed_trans (s t u : State) (h : s.KeepsFixed t) (h' : t.KeepsFixed u) : s.KeepsFixed u :=
  keepsFixed_of_eq s u (h'.cfg.trans h.cfg) (h'.mem.trans h.mem) (h'.seg.trans h.seg)

/-- Writing `Rd` and moving `IP` does that and nothing else. -/
theorem assigned_setReg_advance (s : State) (d : RegId) (v n : Word) (m : Nat) (h : v.toNat = m) :
    s.Assigned ((s.setReg d v).advance n) d m n where
  value := by simpa using h
  ip := rfl
  frame :=
    { fixed := keepsFixed_of_eq _ _ rfl rfl rfl
      regs := fun r hr => by simp [reg_setReg, hr]
      status := rfl
      phase := rfl
      events := ⟨rfl, rfl⟩ }

/-- `raise` leaves everything but the status and the phase alone (R99). -/
theorem raised_raise (s : State) (k : FaultKind) : s.Raised (raise k s) k where
  fixed := keepsFixed_of_eq _ _ rfl rfl rfl
  regs := fun _ => rfl
  status := rfl
  ip := rfl
  phase := rfl
  events := ⟨rfl, rfl⟩

/-- A Class A operation that answers a value assigns it. -/
theorem runClassA_value (s : State) (d : RegId) (r : AluResult) (v : Word) (m : Nat) (hr : r = .value v) (hm : v.toNat = m) :
    ∃ t, runClassA d r s = t ∧ s.Assigned t d m 5 := by
  subst hr; exact ⟨_, rfl, assigned_setReg_advance s d v 5 m hm⟩

/-- A Class A operation that raises leaves `Rd` unchanged. -/
theorem runClassA_raises (s : State) (d : RegId) (r : AluResult) (k : FaultKind) (hr : r = .raises k) :
    runClassA d r s = raise k s := by
  subst hr; rfl

/-- A Class B source byte below 16 names the register of that number. -/
theorem sourceId_eq (r : RegId) (src : Byte) (h : r.val = src.toNat) : sourceId src = some r := by
  have := r.isLt
  rw [sourceId_of_lt src (by omega)]
  simp [Fin.ext_iff, h]

/-- A Class B operation that answers a value assigns it. -/
theorem runClassB_value (s : State) (d r : RegId) (src : Byte) (f : Word → AluResult) (v : Word) (m : Nat)
    (hs : r.val = src.toNat) (hr : f (s.reg r) = .value v) (hm : v.toNat = m) :
    ∃ t, runClassB d src f s = t ∧ s.Assigned t d m 2 := by
  refine ⟨_, ?_, assigned_setReg_advance s d v 2 m hm⟩
  simp only [runClassB, sourceId_eq r src hs, hr, writeBack]

/-- A Class B operation that raises leaves `Rd` unchanged. -/
theorem runClassB_raises (s : State) (d r : RegId) (src : Byte) (f : Word → AluResult) (k : FaultKind)
    (hs : r.val = src.toNat) (hr : f (s.reg r) = .raises k) : runClassB d src f s = raise k s := by
  simp only [runClassB, sourceId_eq r src hs, hr, writeBack]

/-- A Class B source byte above 15 raises `InternalFault` (R83). -/
theorem runClassB_internalFault (s : State) (d : RegId) (src : Byte) (f : Word → AluResult) (h : 15 < src.toNat) :
    runClassB d src f s = raise (.internalFault src) s := by
  simp only [runClassB, sourceId_of_ge src h]

end Sys2Proof.Machine
end

