-- ==== Sys2Proof/Laws/Memory.lean ====
section
/-! SUPPORT. The image's laws: what a read answers after a write, that every operation keeps the canonical form, and that a
loaded image reads as its bytes. -/

namespace Sys2Proof.Machine

/-- A byte written is read back. -/
@[simp] theorem read_write_self (m : Memory) (a : Nat) (v : Byte) : (Memory.write m a v).read a = some v := by
  induction m with
  | nil => simp [Memory.write, Memory.read]
  | cons c m ih =>
    obtain ⟨k, b⟩ := c
    simp only [Memory.write]
    split
    · simp [Memory.read]
    · split
      · simp [Memory.read]
      · rename_i h; simp [Memory.read, h, ih]

/-- A write leaves every other address alone. -/
theorem read_write_of_ne (m : Memory) (a b : Nat) (v : Byte) (h : b ≠ a) : (Memory.write m a v).read b = m.read b := by
  induction m with
  | nil => simp [Memory.write, Memory.read, h]
  | cons c m ih =>
    obtain ⟨k, x⟩ := c
    simp only [Memory.write]
    split
    · simp [Memory.read, h]
    · split
      · rename_i hk; subst hk; simp [Memory.read, h]
      · simp [Memory.read, ih]

/-- The addresses of an image after a write are the old ones and the written one. -/
theorem mem_write_fst (m : Memory) (a : Nat) (v : Byte) (c : Host.Cell) (h : c ∈ Memory.write m a v) :
    c.1 = a ∨ c ∈ m := by
  induction m with
  | nil => simp_all [Memory.write]
  | cons d m ih =>
    obtain ⟨k, x⟩ := d
    simp only [Memory.write] at h
    split at h
    · simp only [List.mem_cons] at h ⊢
      rcases h with rfl | h | h <;> simp_all
    · split at h
      · simp only [List.mem_cons] at h ⊢
        rcases h with rfl | h <;> simp_all
      · simp only [List.mem_cons] at h ⊢
        rcases h with rfl | h
        · simp
        · rcases ih h with h | h <;> simp_all

/-- A write keeps the canonical form. -/
theorem write_wf (m : Memory) (a : Nat) (v : Byte) (h : m.wf) : (Memory.write m a v).wf := by
  induction m with
  | nil => simp [Memory.write, Memory.wf]
  | cons d m ih =>
    obtain ⟨k, x⟩ := d
    simp only [Memory.wf, List.pairwise_cons] at h
    simp only [Memory.write]
    split
    · rename_i hak
      simp only [Memory.wf, List.pairwise_cons, List.mem_cons]
      refine ⟨?_, h⟩
      rintro c (rfl | hc)
      · exact hak
      · exact lt_trans hak (h.1 c hc)
    · split
      · rename_i hak; subst hak; simpa only [Memory.wf, List.pairwise_cons] using h
      · simp only [Memory.wf, List.pairwise_cons]
        refine ⟨fun c hc => ?_, ih h.2⟩
        rcases mem_write_fst m a v c hc with hc | hc
        · omega
        · exact h.1 c hc

/-- Writing several bytes keeps the canonical form. -/
theorem writeBytes_wf (m : Memory) (a : Nat) (vs : List Byte) (h : m.wf) : (m.writeBytes a vs).wf := by
  induction vs generalizing m a with
  | nil => exact h
  | cons v vs ih => exact ih _ _ (write_wf m a v h)

/-- The bytes below the written ones are left alone. -/
theorem read_writeBytes_of_lt (m : Memory) (a b : Nat) (vs : List Byte) (h : b < a) :
    (m.writeBytes a vs).read b = m.read b := by
  induction vs generalizing m a with
  | nil => rfl
  | cons v vs ih =>
    rw [Memory.writeBytes, ih _ _ (by omega), read_write_of_ne _ _ _ _ (by omega)]

/-- Bytes written are read back, each at its address. -/
theorem read_writeBytes (m : Memory) (a k : Nat) (vs : List Byte) (h : k < vs.length) :
    (m.writeBytes a vs).read (a + k) = vs[k]? := by
  induction vs generalizing m a k with
  | nil => simp at h
  | cons v vs ih =>
    rw [Memory.writeBytes]
    cases k with
    | zero => rw [Nat.add_zero, read_writeBytes_of_lt _ _ _ _ (by omega)]; simp
    | succ k =>
      rw [show a + (k + 1) = a + 1 + k by omega, ih _ _ _ (by simpa using h)]
      simp

/-! ### A loaded image -/

@[simp] theorem ofBytesFrom_length (a : Nat) (bs : List Byte) : (Memory.ofBytesFrom a bs).length = bs.length := by
  induction bs generalizing a with
  | nil => rfl
  | cons b bs ih => simp [Memory.ofBytesFrom, ih]

/-- The addresses of an image from `a` on. -/
theorem ofBytesFrom_addresses (a : Nat) (bs : List Byte) :
    (Memory.ofBytesFrom a bs).map Prod.fst = List.range' a bs.length := by
  induction bs generalizing a with
  | nil => rfl
  | cons b bs ih => simp [Memory.ofBytesFrom, ih, List.range'_succ]

/-- A byte of an image from `a` on. -/
theorem read_ofBytesFrom (a k : Nat) (bs : List Byte) : (Memory.ofBytesFrom a bs).read (a + k) = bs[k]? := by
  induction bs generalizing a k with
  | nil => rfl
  | cons b bs ih =>
    cases k with
    | zero => simp [Memory.ofBytesFrom, Memory.read]
    | succ k =>
      have h := ih (a + 1) k
      rw [show a + 1 + k = a + (k + 1) by omega] at h
      simp [Memory.ofBytesFrom, Memory.read, h]

/-- The image of bytes is contiguous from address 0 (R28). -/
theorem ofBytes_isImage (bs : List Byte) : (Memory.ofBytes bs).isImage := by
  simp [Memory.isImage, Memory.ofBytes, ofBytesFrom_addresses, List.range_eq_range']

/-- `MemRead` of the image of bytes (R30). -/
theorem read_ofBytes (bs : List Byte) (a : Nat) : (Memory.ofBytes bs).read a = bs[a]? := by
  have h := read_ofBytesFrom 0 a bs
  rwa [Nat.zero_add] at h

@[simp] theorem ofBytes_length (bs : List Byte) : (Memory.ofBytes bs).length = bs.length := ofBytesFrom_length 0 bs

/-- A contiguous image is in canonical form. -/
theorem isImage_wf (m : Memory) (h : m.isImage) : m.wf := by
  have h2 : (m.map Prod.fst).Pairwise (· < ·) := by rw [h]; exact List.pairwise_lt_range
  exact List.pairwise_map.mp h2

/-- An address has a value exactly when it is listed. -/
theorem read_isSome_iff (m : Memory) (a : Nat) : (m.read a).isSome ↔ a ∈ m.map Prod.fst := by
  induction m with
  | nil => simp [Memory.read]
  | cons c m ih =>
    obtain ⟨k, b⟩ := c
    by_cases h : a = k <;> simp [Memory.read, h, ih]

/-- In a contiguous image the backed addresses are those below `L` (R29, R30). -/
theorem isImage_read_isSome (m : Memory) (h : m.isImage) (a : Nat) : (m.read a).isSome ↔ a < m.length := by
  rw [read_isSome_iff, h, List.mem_range]

/-- An address at or above `L` is unbacked (R30). -/
theorem isImage_read_none (m : Memory) (h : m.isImage) (a : Nat) (ha : m.length ≤ a) : m.read a = none := by
  have := isImage_read_isSome m h a
  cases hr : m.read a with
  | none => rfl
  | some b => simp [hr] at this; omega

/-! ### Reading several bytes -/

/-- `MemRead(a, n)` of bytes that are all there (R10). -/
theorem readBytes_of_reads (m : Memory) (a : Nat) (bs : List Byte) (n : Nat) (hn : bs.length ≤ n)
    (h : ∀ k, k < bs.length → m.read (a + k) = bs[k]?) :
    ∃ more, m.readBytes a n = bs ++ more := by
  induction bs generalizing a n with
  | nil => exact ⟨_, rfl⟩
  | cons b bs ih =>
    obtain ⟨n, rfl⟩ : ∃ n', n = n' + 1 := ⟨n - 1, by simp at hn; omega⟩
    have h0 := h 0 (by simp)
    obtain ⟨more, hm⟩ := ih (a + 1) n (by simpa using hn) fun k hk => by
      have := h (k + 1) (by simpa using hk)
      rw [show a + 1 + k = a + (k + 1) by omega, this]; simp
    exact ⟨more, by simp_all [Memory.readBytes]⟩

/-- The first unbacked byte ends the read. -/
theorem readBytes_stop (m : Memory) (a : Nat) (bs : List Byte) (n : Nat)
    (h : ∀ k, k < bs.length → m.read (a + k) = bs[k]?) (hn : bs.length ≤ n) (hs : m.read (a + bs.length) = none) :
    m.readBytes a n = bs := by
  induction bs generalizing a n with
  | nil => cases n with
    | zero => rfl
    | succ n => simp at hs; simp [Memory.readBytes, hs]
  | cons b bs ih =>
    obtain ⟨n, rfl⟩ : ∃ n', n = n' + 1 := ⟨n - 1, by simp at hn; omega⟩
    have h0 := h 0 (by simp)
    have := ih (a + 1) n (fun k hk => by
      have := h (k + 1) (by simpa using hk)
      rw [show a + 1 + k = a + (k + 1) by omega, this]; simp) (by simpa using hn)
      (by rw [← hs]; congr 1; simp; omega)
    simp_all [Memory.readBytes]

end Sys2Proof.Machine
end

