-- ==== Sys2Proof/Laws/PerInstr.lean ====
section
/-! SUPPORT. One lemma per constructor of `Instr`: the canonical bytes are as many as the table's `length` says (R43, R58). -/

namespace Sys2Proof.Laws

/-- The canonical bytes of `i` are as many as its table row's `length`. -/
def EncodedLength.Statement (i : Instr) : Prop := (encode i).length = i.tableLength

theorem EncodedLength.prefixByte : EncodedLength.Statement .prefixByte := rfl
theorem EncodedLength.movi (d : RegId) (imm : Word) : EncodedLength.Statement (.movi d imm) := rfl
theorem EncodedLength.addi (d : RegId) (imm : Word) : EncodedLength.Statement (.addi d imm) := rfl
theorem EncodedLength.subi (d : RegId) (imm : Word) : EncodedLength.Statement (.subi d imm) := rfl
theorem EncodedLength.muli (d : RegId) (imm : Word) : EncodedLength.Statement (.muli d imm) := rfl
theorem EncodedLength.divi (d : RegId) (imm : Word) : EncodedLength.Statement (.divi d imm) := rfl
theorem EncodedLength.add (d : RegId) (src : Byte) : EncodedLength.Statement (.add d src) := rfl
theorem EncodedLength.sub (d : RegId) (src : Byte) : EncodedLength.Statement (.sub d src) := rfl
theorem EncodedLength.mul (d : RegId) (src : Byte) : EncodedLength.Statement (.mul d src) := rfl
theorem EncodedLength.div (d : RegId) (src : Byte) : EncodedLength.Statement (.div d src) := rfl
theorem EncodedLength.mov (d : RegId) (src : Byte) : EncodedLength.Statement (.mov d src) := rfl
theorem EncodedLength.halt : EncodedLength.Statement .halt := rfl
theorem EncodedLength.reservedC (c : Nibble) : EncodedLength.Statement (.reservedC c) := rfl
theorem EncodedLength.unknown0 (x : Nibble) : EncodedLength.Statement (.unknown0 x) := rfl
theorem EncodedLength.unknownB (x : Nibble) : EncodedLength.Statement (.unknownB x) := rfl
theorem EncodedLength.unknownC (x : Nibble) : EncodedLength.Statement (.unknownC x) := rfl
theorem EncodedLength.unknownD (x : Nibble) : EncodedLength.Statement (.unknownD x) := rfl
theorem EncodedLength.unknownE (x : Nibble) : EncodedLength.Statement (.unknownE x) := rfl

end Sys2Proof.Laws
end

