-- ==== Sys2Proof/Laws/Step.lean ====
section
/-! SUPPORT. What exec, a transition and a step can do, said once. -/

namespace Sys2Proof.Machine

/-- Everything an instruction can do: consume the prefix, write one register and move on, raise a fault, halt, or report. -/
theorem exec_cases (i : Instr) (s : State) :
    ∃ t, exec i s = .next t ∧
      ((i = .prefixByte ∧ t = { s with ip := s.ip + 1, phase := .afterPrefix }) ∨
       (∃ d v n, (n = 5 ∧ i.opClass = .classA ∨ n = 2 ∧ i.opClass = .classB) ∧ t = (s.setReg d v).advance n) ∨
       (∃ k, (i.opClass = .classA ∨ i.opClass = .classB) ∧ t = raise k s) ∨
       (i = .halt ∧ t = haltRun s) ∨
       ((i.opClass = .none ∨ ∃ c, i = .reservedC c) ∧ t = reportUnknown i.firstByte s)) := by
  have hA (d : RegId) (r : AluResult) (h : i.opClass = .classA) (he : exec i s = .next (runClassA d r s)) :
      ∃ t, exec i s = .next t ∧
      ((i = .prefixByte ∧ t = { s with ip := s.ip + 1, phase := .afterPrefix }) ∨
       (∃ d v n, (n = 5 ∧ i.opClass = .classA ∨ n = 2 ∧ i.opClass = .classB) ∧ t = (s.setReg d v).advance n) ∨
       (∃ k, (i.opClass = .classA ∨ i.opClass = .classB) ∧ t = raise k s) ∨
       (i = .halt ∧ t = haltRun s) ∨
       ((i.opClass = .none ∨ ∃ c, i = .reservedC c) ∧ t = reportUnknown i.firstByte s)) := by
    refine ⟨_, he, ?_⟩
    rcases writeBack_cases d 5 r s with ⟨v, -, hw⟩ | ⟨k, -, hw⟩
    · exact .inr (.inl ⟨d, v, 5, .inl ⟨rfl, h⟩, hw⟩)
    · exact .inr (.inr (.inl ⟨k, .inl h, hw⟩))
  have hB (d : RegId) (src : Byte) (f : Word → AluResult) (h : i.opClass = .classB)
      (he : exec i s = .next (runClassB d src f s)) :
      ∃ t, exec i s = .next t ∧
      ((i = .prefixByte ∧ t = { s with ip := s.ip + 1, phase := .afterPrefix }) ∨
       (∃ d v n, (n = 5 ∧ i.opClass = .classA ∨ n = 2 ∧ i.opClass = .classB) ∧ t = (s.setReg d v).advance n) ∨
       (∃ k, (i.opClass = .classA ∨ i.opClass = .classB) ∧ t = raise k s) ∨
       (i = .halt ∧ t = haltRun s) ∨
       ((i.opClass = .none ∨ ∃ c, i = .reservedC c) ∧ t = reportUnknown i.firstByte s)) := by
    refine ⟨_, he, ?_⟩
    rcases runClassB_cases d src f s with ⟨-, hr⟩ | ⟨r, -, hr⟩
    · exact .inr (.inr (.inl ⟨_, .inr h, hr⟩))
    · rw [hr]
      rcases writeBack_cases d 2 (f (s.reg r)) s with ⟨v, -, hw⟩ | ⟨k, -, hw⟩
      · exact .inr (.inl ⟨d, v, 2, .inr ⟨rfl, h⟩, hw⟩)
      · exact .inr (.inr (.inl ⟨k, .inr h, hw⟩))
  cases i with
  | prefixByte => exact ⟨_, rfl, .inl ⟨rfl, rfl⟩⟩
  | movi d imm | addi d imm | subi d imm | muli d imm | divi d imm => exact hA d _ rfl rfl
  | add d src | sub d src | mul d src | div d src | mov d src => exact hB d src _ rfl rfl
  | halt => exact ⟨_, rfl, .inr (.inr (.inr (.inl ⟨rfl, rfl⟩)))⟩
  | reservedC c => exact ⟨_, rfl, .inr (.inr (.inr (.inr ⟨.inr ⟨c, rfl⟩, rfl⟩)))⟩
  | unknown0 x | unknownB x | unknownC x | unknownD x | unknownE x =>
    exact ⟨_, rfl, .inr (.inr (.inr (.inr ⟨.inl rfl, rfl⟩)))⟩

/-- An instruction is fetched only at an `IP` that passes the bound check (R61), and a prefix only in phase `Boundary`. -/
theorem fetch_eq_instr (s : State) (i : Instr) (h : fetch s = .instr i) :
    s.ip.toNat ≤ s.cfg.M ∧ ∃ rest, decode s.phase (s.mem.readBytes s.ip.toNat 5) = .ok i rest := by
  simp only [fetch] at h
  split at h
  · simp at h
  · split at h
    · rename_i hM i' rest hd
      simp only [Fetched.instr.injEq] at h
      exact ⟨by omega, rest, by rw [hd, h]⟩
    · simp at h
    · simp at h

/-- Where the bytes at `IP` decode and the bound check passes, that instruction is fetched. -/
theorem fetch_of_decode (s : State) (i : Instr) (rest : List Byte) (hM : s.ip.toNat ≤ s.cfg.M)
    (h : decode s.phase (s.mem.readBytes s.ip.toNat 5) = .ok i rest) : fetch s = .instr i := by
  simp [fetch, Nat.not_lt.mpr hM, h]

/-- A transition executes a fetched instruction, or raises the `MemoryFault` of fetching. -/
theorem transition_cases (s : State) :
    (∃ i, fetch s = .instr i ∧ transition s = exec i s) ∨
    (∃ a, fetch s = .raises (.memoryFault a) ∧ transition s = .next (raise (.memoryFault a) s)) := by
  cases hf : fetch s with
  | instr i => exact .inl ⟨i, rfl, by simp [transition, hf]⟩
  | raises k =>
    right
    simp only [fetch] at hf
    split at hf
    · cases hf; exact ⟨_, rfl, by simp [transition, fetch, *]⟩
    · split at hf <;> cases hf <;> exact ⟨_, rfl, by simp [transition, fetch, *]⟩

/-- After a transition from phase `AfterPrefix` the phase is `Boundary`: a step consumes at most one prefix (R64). -/
theorem transition_phase (s : State) (h : s.phase = .afterPrefix) :
    ∃ t, transition s = .next t ∧ t.phase = .boundary := by
  rcases transition_cases s with ⟨i, hf, ht⟩ | ⟨a, -, ht⟩
  · obtain ⟨-, rest, hd⟩ := fetch_eq_instr s i hf
    obtain ⟨t, he, hc⟩ := exec_cases i s
    refine ⟨t, by rw [ht, he], ?_⟩
    rcases hc with ⟨rfl, -⟩ | ⟨d, v, n, -, rfl⟩ | ⟨k, -, rfl⟩ | ⟨-, rfl⟩ | ⟨-, rfl⟩
    · have := (decode_eq_prefixByte _ _ _).mp hd
      simp_all
    all_goals simp
  · exact ⟨_, ht, rfl⟩

/-- The state in which the opcode byte after a prefix is decoded (R63). -/
def afterPrefixOf (s : State) : State := { s with ip := s.ip + 1, phase := .afterPrefix }

/-- Everything a step from `Running` can do: a transition that ends the step, or a consumed prefix and then a transition that
ends it; after either, the snapshot. -/
theorem step_cases (s : State) (hr : s.status = .running) :
    ∃ t, step s = .next (emitSnapshot t) ∧ t.phase = .boundary ∧
      (transition s = .next t ∨
       (fetch s = .instr .prefixByte ∧ transition (afterPrefixOf s) = .next t)) := by
  rcases transition_cases s with ⟨i, hf, ht⟩ | ⟨a, -, ht⟩
  · obtain ⟨t, he, hc⟩ := exec_cases i s
    by_cases hi : i = .prefixByte
    · subst hi
      have he' : exec .prefixByte s = .next (afterPrefixOf s) := rfl
      obtain ⟨u, hu, hp⟩ := transition_phase (afterPrefixOf s) rfl
      refine ⟨u, ?_, hp, .inr ⟨hf, hu⟩⟩
      simp only [step, runStep, hr, ht, he', andThen, finishPrefixed,
        show (afterPrefixOf s).phase = .afterPrefix from rfl, hu]
    · have hp : t.phase = .boundary := by
        rcases hc with ⟨h, -⟩ | ⟨d, v, n, -, rfl⟩ | ⟨k, -, rfl⟩ | ⟨-, rfl⟩ | ⟨-, rfl⟩
        · exact absurd h hi
        all_goals simp
      exact ⟨t, by simp [step, runStep, hr, ht, he, andThen, finishPrefixed, hp], hp, .inl (by rw [ht, he])⟩
  · exact ⟨_, by simp [step, runStep, hr, ht, andThen, finishPrefixed], rfl, .inl ht⟩

end Sys2Proof.Machine
end

