-- ==== Sys2Proof/Tests/Slice0.lean ====
section
/-! SUPPORT. The model's own tests. Every expected result is a vector of spec/95_test_vectors.md, named in the docstring, or is
written out by hand from the rule named there. The second part holds one witness for each statement with hypotheses. -/

namespace Sys2Proof.Tests

open Sys2Proof Sys2Proof.Machine

/-! ### Helpers -/

/-- The vectors' parameters: `M = 16`, `DEBUG = false` (spec/95_test_vectors.md, conventions). -/
def params (ovf : Ovf) : Config := { memSize := 16, debug := false, ovf := ovf }

/-- A start state: the reset state on an image, with some registers pre-set (a harness state, S3). -/
def start (ovf : Ovf) (img : List Byte) (regs : List (RegId × Word)) : State :=
  regs.foldl (fun s x => s.setReg x.1 x.2) (State.start (params ovf) (Memory.ofBytes img))

/-- The next state of an outcome, if there is one. -/
def after (o : Host.Outcome State Fault Refusal) : Option State :=
  match o with
  | .next t => some t
  | .fault _ => none
  | .refused _ => none

/-- What one step shows: the status, `IP` and one register. -/
def shows (s : State) (d : RegId) : Option (Status × Nat × Word) :=
  (after (step s)).map fun t => (t.status, t.ip.toNat, t.reg d)

/-- What one step reports, and where it leaves `IP`. -/
def reported (s : State) : Option (List Report × Nat) :=
  (after (step s)).map fun t => (t.reports, t.ip.toNat)

/-- The result of a container parse, as data. -/
def parsed (f : List Byte) : Option Segments × Option FormatError :=
  match parseContainer f with
  | .ok c => (some c, none)
  | .error e => (none, some e)

/-! ### WellFormed -/

/-- R46, R92: `0xF0` is HALT, so RESERVED_C with low nibble 0 is no instruction. -/
theorem test_reservedC_zero_refused : (Instr.reservedC 0).wellFormed = false := by decide

/-- D23, vectors TE13 and TE14, and a negative destination: outside the encoder's domain. -/
theorem test_operation_domain :
    ({ opcode := 1, operand1 := 16, operand2 := 0 } : Operation).inDomain = false ∧
    ({ opcode := 6, operand1 := 0, operand2 := 256 } : Operation).inDomain = false ∧
    ({ opcode := 2, operand1 := -1, operand2 := 0 } : Operation).inDomain = false ∧
    ({ opcode := 7, operand1 := 0, operand2 := -1 } : Operation).inDomain = false := by decide

/-! ### Decoding: one word for every row, bit by bit from the table's `encoding` -/

theorem test_decode_prefix : decode .boundary [0b00110010#8] = .ok .prefixByte [] := by decide

theorem test_decode_movi : decodeInstr [0b00110010#8, 0b00011101#8, 0x04#8, 0x03#8, 0x02#8, 0x01#8] =
    .ok (.movi 13 0x01020304) [] := by decide

theorem test_decode_addi : decodeInstr [0b00110010#8, 0b00101111#8, 0xFF#8, 0xFF#8, 0xFF#8, 0xFF#8] =
    .ok (.addi 15 0xFFFFFFFF) [] := by decide

theorem test_decode_subi : decodeInstr [0b00110010#8, 0b00110010#8, 0x01#8, 0x00#8, 0x00#8, 0x00#8] =
    .ok (.subi 2 1) [] := by decide

theorem test_decode_muli : decodeInstr [0b00110010#8, 0b01000001#8, 0x00#8, 0x00#8, 0x01#8, 0x00#8] =
    .ok (.muli 1 0x10000) [] := by decide

theorem test_decode_divi : decodeInstr [0b00110010#8, 0b01010000#8, 0x78#8, 0x56#8, 0x34#8, 0x12#8] =
    .ok (.divi 0 0x12345678) [] := by decide

theorem test_decode_add : decodeInstr [0b01101111#8, 0b00001110#8] = .ok (.add 15 14) [] := by decide

theorem test_decode_sub : decodeInstr [0b01110001#8, 0b00000000#8] = .ok (.sub 1 0) [] := by decide

theorem test_decode_mul : decodeInstr [0b10000010#8, 0b00000011#8] = .ok (.mul 2 3) [] := by decide

/-- The source byte is not masked (R90). -/
theorem test_decode_div : decodeInstr [0b10010100#8, 0b00010000#8] = .ok (.div 4 16) [] := by decide

theorem test_decode_mov : decodeInstr [0b10100111#8, 0b00001001#8] = .ok (.mov 7 9) [] := by decide

theorem test_decode_halt : decodeInstr [0b11110000#8] = .ok .halt [] := by decide

theorem test_decode_reservedC : decodeInstr [0b11110101#8] = .ok (.reservedC 5) [] := by decide

theorem test_decode_unknown0 : decodeInstr [0b00001111#8] = .ok (.unknown0 15) [] := by decide

theorem test_decode_unknownB : decodeInstr [0b10110111#8] = .ok (.unknownB 7) [] := by decide

theorem test_decode_unknownC : decodeInstr [0b11000000#8] = .ok (.unknownC 0) [] := by decide

theorem test_decode_unknownD : decodeInstr [0b11010011#8] = .ok (.unknownD 3) [] := by decide

theorem test_decode_unknownE : decodeInstr [0b11101111#8] = .ok (.unknownE 15) [] := by decide

/-- R67, vector TD8: a Class A body without its prefix. -/
theorem test_decode_bare_classA : decodeInstr [0x13#8, 0x2A#8, 0x00#8, 0x00#8, 0x00#8, 0xF0#8] =
    .ok (.movi 3 42) [0xF0#8] := by decide

/-- The first missing operand byte is named, counted from the opcode byte (R82, R83; TD5, TD6, TD7). -/
theorem test_decode_missing_bytes :
    decodeInstr [0x32#8, 0x11#8, 0x01#8, 0x02#8] = .missing 3 ∧ decodeInstr [0x60#8] = .missing 1 ∧
    decodeInstr [0x32#8] = .empty := by decide

/-! ### Encoding -/

/-- Vectors TE1 (S1), TE2, TE3, TE4. -/
theorem test_encode_classA :
    encode (.movi 3 42) = [0x32#8, 0x13#8, 0x2A#8, 0x00#8, 0x00#8, 0x00#8] ∧
    encode (.subi 2 1) = [0x32#8, 0x32#8, 0x01#8, 0x00#8, 0x00#8, 0x00#8] ∧
    encode (.addi 15 0xFFFFFFFF) = [0x32#8, 0x2F#8, 0xFF#8, 0xFF#8, 0xFF#8, 0xFF#8] ∧
    encode (.divi 0 0x12345678) = [0x32#8, 0x50#8, 0x78#8, 0x56#8, 0x34#8, 0x12#8] := by decide

/-- The Operation encoder on TE3, TE7 and TE9, on TE10 and TE12, and on TE13 and TE14. -/
theorem test_encode_operations :
    ({ opcode := 2, operand1 := 15, operand2 := -1 } : Operation).encode =
      some [0x32#8, 0x2F#8, 0xFF#8, 0xFF#8, 0xFF#8, 0xFF#8] ∧
    ({ opcode := 6, operand1 := 0, operand2 := 16 } : Operation).encode = some [0x60#8, 0x10#8] ∧
    ({ opcode := 0xF5, operand1 := 0, operand2 := 0 } : Operation).encode = some [0xF5#8] ∧
    ({ opcode := 0, operand1 := 1, operand2 := 2 } : Operation).encode = some [] ∧
    ({ opcode := 0xEF, operand1 := 1, operand2 := 2 } : Operation).encode = some [] ∧
    ({ opcode := 1, operand1 := 16, operand2 := 0 } : Operation).encode = none ∧
    ({ opcode := 6, operand1 := 0, operand2 := 256 } : Operation).encode = none := by decide

/-! ### Table rows as numbers (R58; log entry 20) -/

theorem test_table_rows_classA :
    decodeTableWord 48 0x321000000000 = some (.movi 0 0) ∧ decodeTableWord 48 0x322000000000 = some (.addi 0 0) ∧
    decodeTableWord 48 0x323000000000 = some (.subi 0 0) ∧ decodeTableWord 48 0x324000000000 = some (.muli 0 0) ∧
    decodeTableWord 48 0x325000000000 = some (.divi 0 0) ∧ decodeTableWord 48 0x1032 = some (.movi 0 0) ∧
    decodeTableWord 48 0x5032 = some (.divi 0 0) := by decide

theorem test_table_rows_classB :
    decodeTableWord 16 0x6000 = some (.add 0 0) ∧ decodeTableWord 16 0x7000 = some (.sub 0 0) ∧
    decodeTableWord 16 0x8000 = some (.mul 0 0) ∧ decodeTableWord 16 0x9000 = some (.div 0 0) ∧
    decodeTableWord 16 0xA000 = some (.mov 0 0) ∧ decodeTableWord 16 0x60 = some (.add 0 0) ∧
    decodeTableWord 16 0xA0 = some (.mov 0 0) := by decide

theorem test_table_rows_one_byte :
    decodeTableWord 8 0x32 = some .prefixByte ∧ decodeTableWord 8 0xF0 = some .halt ∧
    decodeTableWord 8 0xF1 = some (.reservedC 1) ∧ decodeTableWord 8 0x00 = some (.unknown0 0) ∧
    decodeTableWord 8 0xB0 = some (.unknownB 0) ∧ decodeTableWord 8 0xC0 = some (.unknownC 0) ∧
    decodeTableWord 8 0xD0 = some (.unknownD 0) ∧ decodeTableWord 8 0xE0 = some (.unknownE 0) := by decide

/-- From reset, the very next step runs the placed instruction (R77, R83, R91). -/
theorem test_withFetchWord :
    shows (State.reset.withFetchWord 48 0x32132A000000) 3 = some (.running, 6, 42) ∧
    shows (State.reset.withFetchWord 16 0x6010) 0 = some (.faulted (.internalFault 16), 0, 0) ∧
    shows (State.reset.withFetchWord 8 0xF0) 0 = some (.halted, 0, 0) ∧
    shows (State.reset.withFetchWord 8 0xC4) 0 = some (.running, 1, 0) := by decide

/-! ### Class A: one step each (R77 to R82) -/

/-- TA1. -/
theorem test_movi : shows (start .wrap [0x32#8, 0x13#8, 0x2A#8, 0x00#8, 0x00#8, 0x00#8] [(3, 7)]) 3 =
    some (.running, 6, 42) := by decide

/-- TA2. -/
theorem test_movi_all_ones : shows (start .wrap [0x32#8, 0x1F#8, 0xFF#8, 0xFF#8, 0xFF#8, 0xFF#8] []) 15 =
    some (.running, 6, 0xFFFFFFFF) := by decide

/-- TA24: the byte order of the immediate. -/
theorem test_addi_byte_order : shows (start .wrap [0x32#8, 0x29#8, 0x01#8, 0x02#8, 0x03#8, 0x04#8] []) 9 =
    some (.running, 6, 0x04030201) := by decide

/-- TA6. -/
theorem test_addi_overflow : shows (start .fault [0x32#8, 0x20#8, 0x01#8, 0x00#8, 0x00#8, 0x00#8] [(0, 0xFFFFFFFF)]) 0 =
    some (.faulted .overflow, 1, 0xFFFFFFFF) := by decide

/-- TA9: SUBI R2, whose opcode byte is the marker's value. -/
theorem test_subi_r2 : shows (start .wrap [0x32#8, 0x32#8, 0x01#8, 0x00#8, 0x00#8, 0x00#8] [(2, 5)]) 2 =
    some (.running, 6, 4) := by decide

/-- TA10 under `Wrap`, TA11 under `Fault`. -/
theorem test_subi_underflow :
    shows (start .wrap [0x32#8, 0x34#8, 0x01#8, 0x00#8, 0x00#8, 0x00#8] []) 4 = some (.running, 6, 0xFFFFFFFF) ∧
    shows (start .fault [0x32#8, 0x34#8, 0x01#8, 0x00#8, 0x00#8, 0x00#8] []) 4 = some (.faulted .overflow, 1, 0) := by
  decide

/-- TA16. -/
theorem test_muli_wraps : shows (start .wrap [0x32#8, 0x41#8, 0xFF#8, 0xFF#8, 0xFF#8, 0xFF#8] [(1, 0xFFFFFFFF)]) 1 =
    some (.running, 6, 1) := by decide

/-- TA15. -/
theorem test_muli_overflow : shows (start .fault [0x32#8, 0x41#8, 0x00#8, 0x00#8, 0x01#8, 0x00#8] [(1, 0x10000)]) 1 =
    some (.faulted .overflow, 1, 0x10000) := by decide

/-- TA18. -/
theorem test_divi_floor : shows (start .wrap [0x32#8, 0x50#8, 0x07#8, 0x00#8, 0x00#8, 0x00#8] [(0, 100)]) 0 =
    some (.running, 6, 14) := by decide

/-- S6. -/
theorem test_divi_by_zero : shows (start .wrap [0x32#8, 0x50#8, 0x00#8, 0x00#8, 0x00#8, 0x00#8] [(0, 9)]) 0 =
    some (.faulted .divideByZero, 1, 9) := by decide

/-! ### Class B: one step each (R83 to R90) -/

/-- TB24. -/
theorem test_add : shows (start .wrap [0x6F#8, 0x0E#8] [(14, 1), (15, 2)]) 15 = some (.running, 2, 3) := by decide

/-- TB5 under `Wrap`, TB6 under `Fault`: the same register twice. -/
theorem test_add_doubles :
    shows (start .wrap [0x61#8, 0x01#8] [(1, 0x80000000)]) 1 = some (.running, 2, 0) ∧
    shows (start .fault [0x61#8, 0x01#8] [(1, 0x80000000)]) 1 = some (.faulted .overflow, 0, 0x80000000) := by decide

/-- TB7: destination minus source. -/
theorem test_sub : shows (start .wrap [0x71#8, 0x00#8] [(0, 15), (1, 5)]) 1 = some (.running, 2, 0xFFFFFFF6) := by decide

/-- TB8. -/
theorem test_sub_underflow : shows (start .fault [0x71#8, 0x00#8] [(0, 15), (1, 5)]) 1 =
    some (.faulted .overflow, 0, 5) := by decide

/-- TB10. -/
theorem test_mul : shows (start .wrap [0x82#8, 0x03#8] [(2, 6), (3, 7)]) 2 = some (.running, 2, 42) := by decide

/-- TB12. -/
theorem test_mul_overflow : shows (start .fault [0x82#8, 0x02#8] [(2, 0x10000)]) 2 =
    some (.faulted .overflow, 0, 0x10000) := by decide

/-- S7. -/
theorem test_div_by_zero : shows (start .wrap [0x94#8, 0x05#8] [(4, 7)]) 4 =
    some (.faulted .divideByZero, 0, 7) := by decide

/-- TB23: the id check comes before the divisor. -/
theorem test_div_source_id : shows (start .wrap [0x94#8, 0x10#8] [(4, 7)]) 4 =
    some (.faulted (.internalFault 16), 0, 7) := by decide

/-- TB19. -/
theorem test_mov : shows (start .wrap [0xA7#8, 0x00#8] [(0, 9), (7, 4)]) 7 = some (.running, 2, 9) := by decide

/-- TB22. -/
theorem test_mov_source_id : shows (start .wrap [0xA3#8, 0xFF#8] []) 3 =
    some (.faulted (.internalFault 255), 0, 0) := by decide

/-! ### Class C, unknown bytes, the prefix (R91 to R94, R71) -/

/-- S8: the bytes after HALT do not matter. -/
theorem test_halt : shows (start .wrap [0xF0#8, 0x32#8, 0x13#8, 0x2A#8, 0x00#8, 0x00#8, 0x00#8] []) 3 =
    some (.halted, 0, 0) := by decide

/-- TD12. -/
theorem test_prefixed_halt : shows (start .wrap [0x32#8, 0xF0#8] []) 0 = some (.halted, 1, 0) := by decide

/-- TC2, first step. -/
theorem test_reservedC : reported (start .wrap [0xF5#8, 0xF0#8] []) =
    some ([{ addr := 0, byte := 0xF5 }], 1) := by decide

/-- TD11, first step: behind a prefix the report names the opcode byte's address. -/
theorem test_prefixed_reservedC : reported (start .wrap [0x32#8, 0xF5#8, 0xF0#8] []) =
    some ([{ addr := 1, byte := 0xF5 }], 2) := by decide

/-- TC6, first step. -/
theorem test_unknown0 : reported (start .wrap [0x32#8, 0x00#8, 0xF0#8] []) =
    some ([{ addr := 1, byte := 0x00 }], 2) := by decide

/-- R93 on `0xB7` (a byte of TC4). -/
theorem test_unknownB : reported (start .wrap [0xB7#8] []) = some ([{ addr := 0, byte := 0xB7 }], 1) := by decide

/-- R93 on `0xC0` (a byte of TC5). -/
theorem test_unknownC : reported (start .wrap [0xC0#8] []) = some ([{ addr := 0, byte := 0xC0 }], 1) := by decide

/-- R93 on `0xD3` (a byte of TC5). -/
theorem test_unknownD : reported (start .wrap [0xD3#8] []) = some ([{ addr := 0, byte := 0xD3 }], 1) := by decide

/-- R93 on `0xEF` (a byte of TC5). -/
theorem test_unknownE : reported (start .wrap [0xEF#8] []) = some ([{ addr := 0, byte := 0xEF }], 1) := by decide

/-- TD10, first step: a prefix before Class B. -/
theorem test_prefixed_add : shows (start .wrap [0x32#8, 0x60#8, 0x01#8, 0xF0#8] [(0, 2), (1, 3)]) 0 =
    some (.running, 3, 5) := by decide

/-- TD9, first step: the second `0x32` is SUBI R2. -/
theorem test_stray_prefix :
    shows (start .wrap [0x32#8, 0x32#8, 0x13#8, 0x2A#8, 0x00#8, 0x00#8, 0x00#8, 0xF0#8] []) 2 =
      some (.running, 6, 0xFFFFD5ED) := by decide

/-! ### Fetch (R61, R62, R64, R82, R83) -/

/-- TD1, TD4, TD7. -/
theorem test_fetch_faults :
    shows (start .wrap [] []) 0 = some (.faulted (.memoryFault 0), 0, 0) ∧
    shows { start .wrap [0xF0#8] [] with ip := 17 } 0 = some (.faulted (.memoryFault 17), 17, 0) ∧
    shows (start .wrap [0x32#8] []) 0 = some (.faulted (.memoryFault 1), 1, 0) := by decide

/-- TD5, TD6. -/
theorem test_operand_faults :
    shows (start .wrap [0x32#8, 0x11#8, 0x01#8, 0x02#8] []) 1 = some (.faulted (.memoryFault 4), 1, 0) ∧
    shows (start .wrap [0x60#8] []) 0 = some (.faulted (.memoryFault 1), 0, 0) := by decide

/-- TD2 and TD3 with `M = 0`, TD13 with `M = 3`: what is checked against `M`, and what is not. -/
theorem test_bound_check :
    shows { start .wrap [0xF0#8] [] with cfg := { memSize := 0, debug := false, ovf := .wrap } } 0 =
      some (.halted, 0, 0) ∧
    shows { start .wrap [0x32#8, 0xF0#8] [] with cfg := { memSize := 0, debug := false, ovf := .wrap } } 0 =
      some (.faulted (.memoryFault 1), 1, 0) ∧
    shows { start .wrap [0x32#8, 0x13#8, 0x2A#8, 0x00#8, 0x00#8, 0x00#8] [] with
        cfg := { memSize := 3, debug := false, ovf := .wrap } } 3 = some (.running, 6, 42) := by decide

/-! ### Snapshots (R108) -/

/-- TG1, first step, and TG2: the `IP` of the snapshots emitted, and one register of each. -/
theorem test_snapshots :
    (after (step { start .wrap [0x32#8, 0x13#8, 0x2A#8, 0x00#8, 0x00#8, 0x00#8, 0xF0#8] [] with
        cfg := { memSize := 16, debug := true, ovf := .wrap } })).map
      (fun t => t.snapshots.map fun v => (v.ip.toNat, v.seg.toNat, v.regs[3].toNat)) = some [(6, 0, 42)] ∧
    (after (step { start .wrap [0x94#8, 0x05#8] [(4, 7)] with
        cfg := { memSize := 16, debug := true, ovf := .wrap } })).map (fun t => t.snapshots.length) = some 0 := by decide

/-! ### The loader (R112 to R120) -/

/-- The bytes of vector TK5. -/
def fileTK5 : List Byte :=
  [0x1E#8, 0x55#8, 0xC6#8, 0xB3#8, 0x00#8, 0x00#8, 0x00#8, 0x00#8, 0x02#8, 0x01#8, 0x05#8, 0x2E#8, 0x63#8, 0x6F#8, 0x64#8,
    0x65#8, 0x27#8, 0x00#8, 0x00#8, 0x00#8, 0x07#8, 0x00#8, 0x00#8, 0x00#8] ++
  [0x00#8, 0x05#8, 0x2E#8, 0x64#8, 0x61#8, 0x74#8, 0x61#8, 0x2E#8, 0x00#8, 0x00#8, 0x00#8, 0x00#8, 0x00#8, 0x00#8, 0x00#8,
    0x32#8, 0x13#8, 0x2A#8, 0x00#8, 0x00#8, 0x00#8, 0xF0#8]

/-- The program of TK5. -/
def codeTK5 : List Byte := [0x32#8, 0x13#8, 0x2A#8, 0x00#8, 0x00#8, 0x00#8, 0xF0#8]

/-- TK5 and S11: the serializer's bytes. -/
theorem test_serialize : serializeContainer { code := codeTK5, data := [] } = fileTK5 := by decide

/-- TK5, TK9 and TK10: what the parse reads and what it ignores. -/
theorem test_parse :
    parsed fileTK5 = (some { code := codeTK5, data := [] }, none) ∧
    parsed ((fileTK5.set 6 0xFF#8).set 7 0xFF#8) = (some { code := codeTK5, data := [] }, none) ∧
    parsed (fileTK5.set 9 0x02#8) = (some { code := codeTK5, data := [] }, none) := by decide

/-- TK13, TK14 and a swapped executable byte: the count, and data segments. -/
theorem test_parse_segments :
    parsed (fileTK5.set 8 0x00#8) = (some { code := [], data := [] }, none) ∧
    parsed (fileTK5.set 8 0x01#8) = (some { code := codeTK5, data := [] }, none) ∧
    parsed (fileTK5.set 9 0x00#8) = (some { code := [], data := codeTK5 }, none) := by decide

/-- TK1 (31 zero bytes), TK3, TK4, TK8 and TK12. -/
theorem test_parse_errors :
    parsed (List.replicate 31 0) = (none, some .tooShort) ∧
    parsed ((((fileTK5.set 0 0).set 1 0).set 2 0).set 3 0) = (none, some .badMagic) ∧
    parsed (fileTK5.set 5 0x01#8) = (none, some .badVersion) ∧
    parsed (fileTK5.set 20 0x08#8) = (none, some .truncatedSegment) ∧
    parsed (fileTK5.set 8 0x03#8) = (none, some .truncatedSegment) := by decide

/-! ### Fault codes and the end of a run -/

/-- R96, R121: the codes, and what the host reads. -/
theorem test_codes_and_exits :
    [FaultKind.memoryFault 9, .internalFault 9, .divideByZero, .overflow].map FaultKind.code = [1, 2, 3, 4] ∧
    State.reset.exitKind = none ∧ (haltRun State.reset).exitKind = some .normal ∧
    (raise .overflow State.reset).exitKind = some (.abnormal .overflow) := by decide

/-! ### Witnesses: states and operands that meet the hypotheses of each statement

The states that several of them use. -/

/-- The source's scenario (S2): `MOVI R3, 42` and HALT, under one overflow policy. -/
def moviState (ovf : Ovf) : State := start ovf codeTK5 []

/-- An image that starts with an unprefixed byte pair: `ADD R0, R1` and HALT (S3). -/
def addState (ovf : Ovf) (a b : Word) : State := start ovf [0x60#8, 0x01#8, 0xF0#8] [(0, a), (1, b)]

theorem moviState_ready (ovf : Ovf) : (moviState ovf).Ready := ⟨rfl, rfl, by cases ovf <;> decide⟩

theorem addState_ready (ovf : Ovf) (a b : Word) : (addState ovf a b).Ready :=
  ⟨rfl, rfl, Nat.zero_le _⟩

/-- `MOVI`'s opcode byte stands at address 1, behind the prefix. -/
theorem moviState_opcodeAt : (moviState .wrap).OpcodeAt 1 0x13#8 :=
  ⟨moviState_ready .wrap, by decide, .inr (by decide)⟩

/-- `ADD`'s opcode byte stands at address 0. -/
theorem addState_opcodeAt (ovf : Ovf) (a b : Word) : (addState ovf a b).OpcodeAt 0 0x60#8 :=
  ⟨addState_ready ovf a b, rfl, .inl ⟨rfl, by decide⟩⟩

/-- A sum of `2^32 - 1` and a sum of `2^32`, under both policies. -/
theorem witness_AddiAddsImmediate :
    ((addState .wrap 1 5).cfg.ovf = .wrap ∨ ((addState .wrap 1 5).reg 1).toNat + (0xFFFFFFFF : Word).toNat < 2 ^ 32) ∧
    ((addState .fault 1 5).cfg.ovf = .wrap ∨ ((addState .fault 1 5).reg 1).toNat + (0xFFFFFFFA : Word).toNat < 2 ^ 32) ∧
    ((addState .fault 1 5).cfg.ovf = .fault ∧ 2 ^ 32 ≤ ((addState .fault 1 5).reg 1).toNat + (0xFFFFFFFB : Word).toNat) := by
  decide

/-- A difference of 0, and of -1 under both policies. -/
theorem witness_SubiSubtractsImmediate :
    (5 : Word).toNat ≤ ((addState .fault 1 5).reg 1).toNat ∧
    ((addState .wrap 1 5).cfg.ovf = .wrap ∧ ((addState .wrap 1 5).reg 1).toNat < (6 : Word).toNat) ∧
    ((addState .fault 1 5).cfg.ovf = .fault ∧ ((addState .fault 1 5).reg 1).toNat < (6 : Word).toNat) := by decide

/-- `5 * 0x33333333 = 2^32 - 1` and `5 * 0x33333334 >= 2^32`, under both policies. -/
theorem witness_MuliMultipliesByImmediate :
    ((addState .wrap 1 5).cfg.ovf = .wrap ∨ ((addState .wrap 1 5).reg 1).toNat * (0x33333334 : Word).toNat < 2 ^ 32) ∧
    ((addState .fault 1 5).cfg.ovf = .wrap ∨ ((addState .fault 1 5).reg 1).toNat * (0x33333333 : Word).toNat < 2 ^ 32) ∧
    ((addState .fault 1 5).cfg.ovf = .fault ∧
      2 ^ 32 ≤ ((addState .fault 1 5).reg 1).toNat * (0x33333334 : Word).toNat) := by decide

theorem witness_DiviDividesByImmediate : (1 : Word) ≠ 0 ∧ (0 : Word) = 0 := by decide

/-- A sum of `2^32 - 1` and a sum of `2^32`; the source bytes 1, 15 and 16. -/
theorem witness_AddAddsRegister :
    ((1 : RegId).val = (1 : Byte).toNat ∧ ((addState .wrap 1 0xFFFFFFFF).cfg.ovf = .wrap ∨
      ((addState .wrap 1 0xFFFFFFFF).reg 0).toNat + ((addState .wrap 1 0xFFFFFFFF).reg 1).toNat < 2 ^ 32)) ∧
    ((1 : RegId).val = (1 : Byte).toNat ∧ ((addState .fault 1 0xFFFFFFFE).cfg.ovf = .wrap ∨
      ((addState .fault 1 0xFFFFFFFE).reg 0).toNat + ((addState .fault 1 0xFFFFFFFE).reg 1).toNat < 2 ^ 32)) ∧
    ((1 : RegId).val = (1 : Byte).toNat ∧ (addState .fault 1 0xFFFFFFFF).cfg.ovf = .fault ∧
      2 ^ 32 ≤ ((addState .fault 1 0xFFFFFFFF).reg 0).toNat + ((addState .fault 1 0xFFFFFFFF).reg 1).toNat) ∧
    (15 : RegId).val = (15 : Byte).toNat ∧ 15 < (16 : Byte).toNat := by decide

/-- A difference of 0, and of -1 under both policies; the source byte 16. -/
theorem witness_SubSubtractsRegister :
    ((1 : RegId).val = (1 : Byte).toNat ∧ ((addState .fault 5 5).reg 1).toNat ≤ ((addState .fault 5 5).reg 0).toNat) ∧
    ((1 : RegId).val = (1 : Byte).toNat ∧ (addState .wrap 5 6).cfg.ovf = .wrap ∧
      ((addState .wrap 5 6).reg 0).toNat < ((addState .wrap 5 6).reg 1).toNat) ∧
    ((1 : RegId).val = (1 : Byte).toNat ∧ (addState .fault 5 6).cfg.ovf = .fault ∧
      ((addState .fault 5 6).reg 0).toNat < ((addState .fault 5 6).reg 1).toNat) ∧
    15 < (16 : Byte).toNat := by decide

/-- `5 * 0x33333333 = 2^32 - 1` and `5 * 0x33333334 >= 2^32`; the source byte 16. -/
theorem witness_MulMultipliesByRegister :
    ((1 : RegId).val = (1 : Byte).toNat ∧ ((addState .wrap 5 0x33333334).cfg.ovf = .wrap ∨
      ((addState .wrap 5 0x33333334).reg 0).toNat * ((addState .wrap 5 0x33333334).reg 1).toNat < 2 ^ 32)) ∧
    ((1 : RegId).val = (1 : Byte).toNat ∧ ((addState .fault 5 0x33333333).cfg.ovf = .wrap ∨
      ((addState .fault 5 0x33333333).reg 0).toNat * ((addState .fault 5 0x33333333).reg 1).toNat < 2 ^ 32)) ∧
    ((1 : RegId).val = (1 : Byte).toNat ∧ (addState .fault 5 0x33333334).cfg.ovf = .fault ∧
      2 ^ 32 ≤ ((addState .fault 5 0x33333334).reg 0).toNat * ((addState .fault 5 0x33333334).reg 1).toNat) ∧
    15 < (16 : Byte).toNat := by decide

/-- A divisor of 1 and a divisor of 0; the source byte 16. -/
theorem witness_DivDividesByRegister :
    ((1 : RegId).val = (1 : Byte).toNat ∧ (addState .wrap 7 1).reg 1 ≠ 0) ∧
    ((1 : RegId).val = (1 : Byte).toNat ∧ (addState .wrap 7 0).reg 1 = 0) ∧
    15 < (16 : Byte).toNat := by decide

theorem witness_MovCopiesRegister : (15 : RegId).val = (15 : Byte).toNat ∧ 15 < (16 : Byte).toNat := by decide

/-- The same register twice: not 0, 0, and under `Wrap`. -/
theorem witness_SameRegisterOperands :
    (1 : Byte).toNat = (1 : RegId).val ∧ (addState .fault 0 1).reg 1 ≠ 0 ∧ (addState .fault 0 0).reg 1 = 0 ∧
    (addState .wrap 0 0x80000000).cfg.ovf = .wrap := by decide

/-- The two ends of `0xF1`..`0xFF`. -/
theorem witness_ReservedByteReportsAndAdvances :
    (1 : Nibble) ≠ 0 ∧ (15 : Nibble) ≠ 0 ∧
    ({ opcode := 0xF1, operand1 := 0, operand2 := 0 } : Operation).opcode = BitVec.ofNat 8 (0xF0 + (1 : Nibble).toNat) := by
  decide

/-- The pairs that the statement names. -/
def noClassPairs (x : Nibble) : List (Instr × Nat) :=
  [(.unknown0 x, 0x00), (.unknownB x, 0xB0), (.unknownC x, 0xC0), (.unknownD x, 0xD0), (.unknownE x, 0xE0)]

/-- Each of the five, with a low nibble at an end of its range. -/
theorem witness_NoClassByteReportsAndAdvances :
    (.unknown0 0, 0x00) ∈ noClassPairs 0 ∧ (.unknownB 15, 0xB0) ∈ noClassPairs 15 ∧
    (.unknownC 0, 0xC0) ∈ noClassPairs 0 ∧ (.unknownD 15, 0xD0) ∈ noClassPairs 15 ∧
    (.unknownE 15, 0xE0) ∈ noClassPairs 15 := by decide

/-- Every clause of the Class A format. -/
theorem witness_ClassAFormat :
    ∀ x ∈ [(1, Instr.movi), (2, Instr.addi), (3, Instr.subi), (4, Instr.muli), (5, Instr.divi)],
      (x.1 = 1 ∧ x.2 = Instr.movi) ∨ (x.1 = 2 ∧ x.2 = .addi) ∨ (x.1 = 3 ∧ x.2 = .subi) ∨ (x.1 = 4 ∧ x.2 = .muli) ∨
        (x.1 = 5 ∧ x.2 = .divi) := by simp

/-- Every clause of the Class B format. -/
theorem witness_ClassBFormat :
    ∀ x ∈ [(6, Instr.add), (7, Instr.sub), (8, Instr.mul), (9, Instr.div), (10, Instr.mov)],
      (x.1 = 6 ∧ x.2 = Instr.add) ∨ (x.1 = 7 ∧ x.2 = .sub) ∨ (x.1 = 8 ∧ x.2 = .mul) ∨ (x.1 = 9 ∧ x.2 = .div) ∨
        (x.1 = 10 ∧ x.2 = .mov) := by simp

/-- The first source byte that Class B does not take. -/
theorem witness_ClassBFormat_source : 15 < (16 : Byte).toNat := by decide

/-- An instruction whose opcode byte is the marker's value, and one whose opcode byte is not. -/
theorem witness_BodyDecodesInBothPhases :
    ((Instr.subi 2 7).wellFormed = true ∧ Instr.subi 2 7 ≠ .prefixByte ∧ (Instr.subi 2 7).firstByte = markerByte) ∧
    ((Instr.subi 3 7).wellFormed = true ∧ Instr.subi 3 7 ≠ .prefixByte ∧ (Instr.subi 3 7).firstByte ≠ markerByte) := by
  decide

theorem witness_DecodeOfEncodeIsInstruction :
    ((Instr.reservedC 1).wellFormed = true ∧ Instr.reservedC 1 ≠ .prefixByte) ∧ Instr.prefixByte.wellFormed = true := by
  decide

/-- The decoder reads something in each phase. -/
theorem witness_EncodeOfDecodeIsBytes :
    decode .boundary [0x32#8, 0x00#8] = .ok .prefixByte [0x00#8] ∧
    decode .afterPrefix [0x32#8, 1#8, 0#8, 0#8, 0#8, 9#8] = .ok (.subi 2 1) [9#8] := by decide

/-- Exactly four bytes after the marker, and after another byte. -/
theorem witness_EveryOpcodeByteDecodes : 4 ≤ [0#8, 0#8, 0#8, 0#8].length ∧ (0x33#8 : Byte) ≠ markerByte := by decide

theorem witness_StrayMarkerMisaligns : (Instr.movi 3 42).opClass = .classA := by decide

/-- One Operation of each class. -/
theorem witness_OperationBytesDecodeBack :
    ({ opcode := 5, operand1 := 15, operand2 := -1 } : Operation).encode =
      some [0x32#8, 0x5F#8, 0xFF#8, 0xFF#8, 0xFF#8, 0xFF#8] ∧
    ({ opcode := 10, operand1 := 0, operand2 := 255 } : Operation).encode = some [0xA0#8, 0xFF#8] ∧
    ({ opcode := 0xF0, operand1 := 1, operand2 := 2 } : Operation).encode = some [0xF0#8] := by decide

/-- The ends of the ranges. -/
theorem witness_OtherOpcodesEncodeToNothing :
    (0 : Byte).toNat = 0 ∧ (11 ≤ (11 : Byte).toNat ∧ (0xEF : Byte).toNat ≤ 0xEF) := by decide

theorem witness_NotationEncodesToCanonicalBytes :
    (Instr.add 0 16).wellFormed = true ∧
    Operation.ofInstr (.add 0 16) = some { opcode := 6, operand1 := 0, operand2 := 16 } ∧
    (Instr.unknown0 3).wellFormed = true ∧ Operation.ofInstr (.unknown0 3) = none := by decide

theorem witness_StepRunsDecodedInstruction :
    (addState .wrap 10 5).Ready ∧
    decode .boundary ((addState .wrap 10 5).mem.readBytes (addState .wrap 10 5).ip.toNat 5) = .ok (.add 0 1) [0xF0#8] ∧
    Instr.add 0 1 ≠ .prefixByte := ⟨addState_ready _ _ _, by decide, by decide⟩

theorem witness_StepRunsPrefixedInstruction :
    (moviState .wrap).Ready ∧
    decode .boundary ((moviState .wrap).mem.readBytes (moviState .wrap).ip.toNat 5) =
      .ok .prefixByte [0x13#8, 0x2A#8, 0x00#8, 0x00#8] ∧
    (moviState .wrap).ip.toNat + 1 ≤ (moviState .wrap).cfg.M ∧
    decode .afterPrefix ((moviState .wrap).mem.readBytes ((moviState .wrap).ip.toNat + 1) 5) = .ok (.movi 3 42) [] :=
  ⟨moviState_ready _, by decide, by decide, by decide⟩

/-- The image of `MOVI R3, 42` holds its canonical bytes. -/
theorem moviState_holds : (moviState .wrap).mem.holds (moviState .wrap).ip.toNat (encode (.movi 3 42)) := by
  intro k hk
  have : k < 6 := hk
  interval_cases k <;> decide

/-- The image of `ADD R0, R1` holds its canonical bytes. -/
theorem addState_holds : (addState .wrap 10 5).mem.holds (addState .wrap 10 5).ip.toNat (encode (.add 0 1)) := by
  intro k hk
  have : k < 2 := hk
  interval_cases k <;> decide

/-- A Class A and another instruction. -/
theorem witness_StepRunsCanonicalBytes :
    ((moviState .wrap).Ready ∧ (Instr.movi 3 42).wellFormed = true ∧ Instr.movi 3 42 ≠ .prefixByte ∧
      (moviState .wrap).mem.holds (moviState .wrap).ip.toNat (encode (.movi 3 42)) ∧
      (Instr.movi 3 42).opClass = .classA ∧ (moviState .wrap).ip.toNat + 1 ≤ (moviState .wrap).cfg.M) ∧
    ((addState .wrap 10 5).Ready ∧ (Instr.add 0 1).wellFormed = true ∧ Instr.add 0 1 ≠ .prefixByte ∧
      (addState .wrap 10 5).mem.holds (addState .wrap 10 5).ip.toNat (encode (.add 0 1)) ∧
      (Instr.add 0 1).opClass ≠ .classA) :=
  ⟨⟨moviState_ready _, rfl, by decide, moviState_holds, rfl, by decide⟩,
    ⟨addState_ready _ _ _, rfl, by decide, addState_holds, by decide⟩⟩

theorem witness_StepMoviSetsRegister :
    (moviState .wrap).Ready ∧ (moviState .wrap).ip.toNat + 1 ≤ (moviState .wrap).cfg.M ∧
    (moviState .wrap).mem.holds (moviState .wrap).ip.toNat (0x32#8 :: opcodeByte 1 (nibbleOfReg 3) :: bytesLE 42) :=
  ⟨moviState_ready _, by decide, moviState_holds⟩

/-- A running state whose step goes on, from an image and at the end of one. -/
theorem witness_RunningStepAnswersNext :
    (moviState .wrap).status = .running ∧ (start .wrap [] []).status = .running := by decide

theorem witness_NoStepFromTerminalStatus :
    (haltRun (moviState .wrap)).status = .halted ∧
    (raise .divideByZero (moviState .wrap)).status = .faulted .divideByZero := by decide

/-- A step that goes on, one that halts, and one that faults, each at an opcode byte. -/
theorem witness_IpAdvanceOfStep :
    ((moviState .wrap).OpcodeAt 1 0x13#8 ∧ ∃ t, step (moviState .wrap) = .next t ∧ t.status = .running) ∧
    ((start .wrap [0xF0#8] []).OpcodeAt 0 0xF0#8 ∧ ∃ t, step (start .wrap [0xF0#8] []) = .next t ∧ t.status = .halted) ∧
    ((addState .fault 1 0xFFFFFFFF).OpcodeAt 0 0x60#8 ∧
      ∃ t, step (addState .fault 1 0xFFFFFFFF) = .next t ∧ t.status = .faulted .overflow) :=
  ⟨⟨moviState_opcodeAt, _, rfl, rfl⟩, ⟨⟨⟨rfl, rfl, by decide⟩, rfl, .inl ⟨rfl, by decide⟩⟩, _, rfl, rfl⟩,
    ⟨addState_opcodeAt _ _ _, _, rfl, rfl⟩⟩

/-- A step that goes on, by 6 and by 1. -/
theorem witness_RunningStepMovesForward :
    ((moviState .wrap).status = .running ∧ ∃ t, step (moviState .wrap) = .next t ∧ t.status = .running) ∧
    ((start .wrap [0x00#8] []).status = .running ∧ ∃ t, step (start .wrap [0x00#8] []) = .next t ∧ t.status = .running) :=
  ⟨⟨rfl, _, rfl, rfl⟩, ⟨rfl, _, rfl, rfl⟩⟩

theorem witness_EveryRunEnds : (moviState .fault).status = .running := by decide

/-- The invariant holds in a state that steps. -/
theorem witness_StepKeepsInvariant : (moviState .wrap).Inv ∧ ∃ t, step (moviState .wrap) = .next t :=
  ⟨⟨rfl, by decide, by decide, rfl, by decide⟩, _, rfl⟩

/-- A step that faults and one that halts behind a prefix, from the boundary. -/
theorem witness_StepWritesAtMostOneRegister :
    (∃ t, (addState .fault 1 0xFFFFFFFF).status = .running ∧ (addState .fault 1 0xFFFFFFFF).phase = .boundary ∧
      step (addState .fault 1 0xFFFFFFFF) = .next t ∧ t.status = .faulted .overflow) ∧
    (∃ t, (start .wrap [0x32#8, 0xF0#8] []).status = .running ∧ (start .wrap [0x32#8, 0xF0#8] []).phase = .boundary ∧
      step (start .wrap [0x32#8, 0xF0#8] []) = .next t ∧ t.status = .halted) :=
  ⟨⟨_, rfl, rfl, rfl, rfl⟩, ⟨_, rfl, rfl, rfl, rfl⟩⟩

theorem witness_StepKeepsConfigAndImage : ∃ t, step (moviState .fault) = .next t := ⟨_, rfl⟩

theorem witness_SegIsUnused :
    (∃ t, exec (.movi 3 42) (moviState .wrap) = .next t) ∧ ∃ t, step (moviState .wrap) = .next t := ⟨⟨_, rfl⟩, _, rfl⟩

theorem witness_DebugHasNoEffect : ∃ t, step (moviState .wrap) = .next t := ⟨_, rfl⟩

/-- With `DEBUG`: a step that goes on, one that halts, one that faults. -/
theorem witness_SnapshotAfterEachStep :
    (∃ t, step { moviState .wrap with cfg := { memSize := 16, debug := true, ovf := .wrap } } = .next t ∧
      t.status = .running) ∧
    (∃ t, step { start .wrap [0xF0#8] [] with cfg := { memSize := 16, debug := true, ovf := .wrap } } = .next t ∧
      t.status = .halted) ∧
    (∃ t, step { start .wrap [] [] with cfg := { memSize := 16, debug := true, ovf := .wrap } } = .next t ∧
      t.status = .faulted (.memoryFault 0)) := ⟨⟨_, rfl, rfl⟩, ⟨_, rfl, rfl⟩, ⟨_, rfl, rfl⟩⟩

/-- An unknown opcode byte, and another one. -/
theorem witness_ReportOfStep :
    ((start .wrap [0xF5#8] []).OpcodeAt 0 0xF5#8 ∧ isUnknownOpcode 0xF5#8 = true ∧
      ∃ t, step (start .wrap [0xF5#8] []) = .next t) ∧
    ((moviState .wrap).OpcodeAt 1 0x13#8 ∧ isUnknownOpcode 0x13#8 = false ∧ ∃ t, step (moviState .wrap) = .next t) :=
  ⟨⟨⟨⟨rfl, rfl, by decide⟩, rfl, .inl ⟨rfl, by decide⟩⟩, rfl, _, rfl⟩, ⟨moviState_opcodeAt, rfl, _, rfl⟩⟩

/-- Halting with and without a prefix, and in phase `AfterPrefix`. -/
theorem witness_HaltedOnlyByHalt :
    ((start .wrap [0x32#8, 0xF0#8] []).OpcodeAt 1 0xF0#8 ∧
      ∃ t, step (start .wrap [0x32#8, 0xF0#8] []) = .next t ∧ t.status = .halted) ∧
    ((start .wrap [0xF0#8] []).OpcodeAt 0 0xF0#8 ∧ ∃ t, step (start .wrap [0xF0#8] []) = .next t ∧ t.status = .halted) ∧
    (∃ t, step { start .wrap [0xF0#8] [] with phase := .afterPrefix } = .next t ∧ t.status = .halted) :=
  ⟨⟨⟨⟨rfl, rfl, by decide⟩, by decide, .inr (by decide)⟩, _, rfl, rfl⟩,
    ⟨⟨⟨rfl, rfl, by decide⟩, rfl, .inl ⟨rfl, by decide⟩⟩, _, rfl, rfl⟩, ⟨_, rfl, rfl⟩⟩

/-- `IP = M + 1`, and within `M` the first address after the image. -/
theorem witness_BoundCheckFaults :
    (({ moviState .wrap with ip := 17 } : State).status = .running ∧
      ({ moviState .wrap with ip := 17 } : State).cfg.M < ({ moviState .wrap with ip := 17 } : State).ip.toNat) ∧
    (({ moviState .wrap with ip := 7 } : State).status = .running ∧
      ({ moviState .wrap with ip := 7 } : State).mem.read ({ moviState .wrap with ip := 7 } : State).ip.toNat = none) := by
  decide

/-- `IP = L`, and the empty image. -/
theorem witness_FirstByteUnbackedFaults :
    (({ moviState .wrap with ip := 7 } : State).Ready ∧ ({ moviState .wrap with ip := 7 } : State).mem.isImage ∧
      ({ moviState .wrap with ip := 7 } : State).L ≤ ({ moviState .wrap with ip := 7 } : State).ip.toNat) ∧
    ((start .wrap [] []).Ready ∧ (start .wrap [] []).mem.isImage ∧ (start .wrap [] []).L ≤ (start .wrap [] []).ip.toNat) :=
  ⟨⟨⟨rfl, rfl, by decide⟩, by decide, by decide⟩, ⟨⟨rfl, rfl, by decide⟩, by decide, by decide⟩⟩

/-- An opcode address above `M`, and an unbacked one. -/
theorem witness_OpcodeByteAfterPrefixFaults :
    (({ moviState .wrap with cfg := { memSize := 0, debug := false, ovf := .wrap } } : State).Ready ∧
      ({ moviState .wrap with cfg := { memSize := 0, debug := false, ovf := .wrap } } : State).mem.read 0 =
        some markerByte ∧
      ({ moviState .wrap with cfg := { memSize := 0, debug := false, ovf := .wrap } } : State).cfg.M < 0 + 1) ∧
    ((start .wrap [0x32#8] []).Ready ∧ (start .wrap [0x32#8] []).mem.read 0 = some markerByte ∧
      (start .wrap [0x32#8] []).mem.read (0 + 1) = none) :=
  ⟨⟨⟨rfl, rfl, by decide⟩, rfl, by decide⟩, ⟨⟨rfl, rfl, by decide⟩, rfl, rfl⟩⟩

/-- The first and the last immediate byte unbacked. -/
theorem witness_ImmediateByteUnbackedFaults :
    ((start .wrap [0x10#8] []).OpcodeAt 0 0x10#8 ∧ 1 ≤ (hi 0x10#8).toNat ∧ (hi 0x10#8).toNat ≤ 5 ∧
      (∀ j, 1 ≤ j → j < 1 → ((start .wrap [0x10#8] []).mem.read (0 + j)).isSome) ∧
      (start .wrap [0x10#8] []).mem.read (0 + 1) = none) ∧
    ((start .wrap [0x50#8, 0#8, 0#8, 0#8] []).OpcodeAt 0 0x50#8 ∧ 1 ≤ (hi 0x50#8).toNat ∧ (hi 0x50#8).toNat ≤ 5 ∧
      (∀ j, 1 ≤ j → j < 4 → ((start .wrap [0x50#8, 0#8, 0#8, 0#8] []).mem.read (0 + j)).isSome) ∧
      (start .wrap [0x50#8, 0#8, 0#8, 0#8] []).mem.read (0 + 4) = none) := by
  refine ⟨⟨⟨⟨rfl, rfl, by decide⟩, rfl, .inl ⟨rfl, by decide⟩⟩, by decide, by decide, ?_, rfl⟩,
    ⟨⟨⟨rfl, rfl, by decide⟩, rfl, .inl ⟨rfl, by decide⟩⟩, by decide, by decide, ?_, rfl⟩⟩
  · intro j h1 h2; omega
  · intro j h1 h2; interval_cases j <;> rfl

/-- Each Class A operation with its immediate missing. -/
theorem witness_ClassAFetchFaults :
    ∀ x ∈ [(0x10#8, 1), (0x20#8, 2), (0x30#8, 3), (0x40#8, 4), (0x50#8, 5)],
      (start .wrap [x.1] []).OpcodeAt 0 x.1 ∧ (hi x.1).toNat = x.2 ∧ (start .wrap [x.1] []).mem.read (0 + 1) = none := by
  intro x hx
  have hm : x.1 ≠ markerByte ∧ (hi x.1).toNat = x.2 := by revert x; decide
  exact ⟨⟨⟨rfl, rfl, Nat.zero_le _⟩, rfl, .inl ⟨rfl, hm.1⟩⟩, hm.2, rfl⟩

/-- Each Class B operation with its source byte missing. -/
theorem witness_ClassBFetchFaults :
    ∀ x ∈ [(0x60#8, 6), (0x70#8, 7), (0x80#8, 8), (0x90#8, 9), (0xA0#8, 10)],
      (start .wrap [x.1] []).OpcodeAt 0 x.1 ∧ (hi x.1).toNat = x.2 ∧ (start .wrap [x.1] []).mem.read (0 + 1) = none := by
  intro x hx
  have hm : x.1 ≠ markerByte ∧ (hi x.1).toNat = x.2 := by revert x; decide
  exact ⟨⟨⟨rfl, rfl, Nat.zero_le _⟩, rfl, .inl ⟨rfl, hm.1⟩⟩, hm.2, rfl⟩

/-- An unbacked source byte, and the source byte 16; the first and the last Class B operation. -/
theorem witness_SourceByteFaults :
    ((start .wrap [0x60#8] []).OpcodeAt 0 0x60#8 ∧ 6 ≤ (hi 0x60#8).toNat ∧ (hi 0x60#8).toNat ≤ 10 ∧
      (start .wrap [0x60#8] []).mem.read (0 + 1) = none) ∧
    ((start .wrap [0xA0#8, 16#8] []).OpcodeAt 0 0xA0#8 ∧ 6 ≤ (hi 0xA0#8).toNat ∧ (hi 0xA0#8).toNat ≤ 10 ∧
      (start .wrap [0xA0#8, 16#8] []).mem.read (0 + 1) = some 16#8 ∧ 15 < (16#8).toNat) :=
  ⟨⟨⟨⟨rfl, rfl, by decide⟩, rfl, .inl ⟨rfl, by decide⟩⟩, by decide, by decide, rfl⟩,
    ⟨⟨⟨rfl, rfl, by decide⟩, rfl, .inl ⟨rfl, by decide⟩⟩, by decide, by decide, rfl, by decide⟩⟩

/-- Each fault kind that an instruction raises. -/
theorem witness_FaultCausesOfInstructions :
    (∃ t, exec (.mov 3 16) (moviState .wrap) = .next t ∧ t.status = .faulted (.internalFault 16)) ∧
    (∃ t, exec (.divi 3 0) (moviState .wrap) = .next t ∧ t.status = .faulted .divideByZero) ∧
    (∃ t, exec (.div 3 1) (moviState .wrap) = .next t ∧ t.status = .faulted .divideByZero) ∧
    (∃ t, exec (.subi 3 1) (moviState .fault) = .next t ∧ t.status = .faulted .overflow) :=
  ⟨⟨_, rfl, rfl⟩, ⟨_, rfl, rfl⟩, ⟨_, rfl, rfl⟩, ⟨_, rfl, rfl⟩⟩

theorem witness_FaultLeavesStateAlone :
    ∃ t, (moviState .fault).status = .running ∧ exec (.subi 3 1) (moviState .fault) = .next t ∧
      t.status = .faulted .overflow := ⟨_, rfl, rfl, rfl⟩

/-- A step under `Wrap` whose exact result is out of range. -/
theorem witness_NoOverflowUnderWrap :
    (addState .wrap 1 0xFFFFFFFF).status = .running ∧ (addState .wrap 1 0xFFFFFFFF).cfg.ovf = .wrap ∧
    2 ^ 32 ≤ ((addState .wrap 1 0xFFFFFFFF).reg 0).toNat + ((addState .wrap 1 0xFFFFFFFF).reg 1).toNat ∧
    ∃ t, step (addState .wrap 1 0xFFFFFFFF) = .next t := ⟨rfl, rfl, by decide, _, rfl⟩

theorem witness_AluFunctionsUnderWrap : (1 : Word) ≠ 0 := by decide

/-- The last byte of an image, and the address after it. -/
theorem witness_ImageReadsItsBytes : 6 < codeTK5.length ∧ codeTK5.length ≤ 7 := by decide

theorem witness_BootGivesResetState :
    parseContainer fileTK5 = .ok { code := codeTK5, data := [] } := by rfl

/-- 31 bytes; another magic; another version. -/
theorem witness_BadContainersStartNoRun :
    (List.replicate 31 (0 : Byte)).length < 32 ∧
    (32 ≤ (fileTK5.set 3 0x00#8).length ∧ (fileTK5.set 3 0x00#8).take 4 ≠ [0x1E#8, 0x55#8, 0xC6#8, 0xB3#8]) ∧
    (32 ≤ (fileTK5.set 5 0x01#8).length ∧ (fileTK5.set 5 0x01#8).take 4 = [0x1E#8, 0x55#8, 0xC6#8, 0xB3#8] ∧
      ((fileTK5.set 5 0x01#8).drop 4).take 2 ≠ [0x00#8, 0x00#8]) := by decide

theorem witness_ContainerRoundTrip : 39 + codeTK5.length + ([0xAA#8, 0xBB#8] : List Byte).length < 2 ^ 32 := by decide

end Sys2Proof.Tests
end

/-! ## The state: its start, what a step writes, and what no instruction reads or writes -/

namespace Sys2Proof.Machine

/-! ### The start of a run (R25) -/

/-- Every general register of a start state holds 0. -/
@[simp] theorem reg_start (cfg : Config) (img : Memory) (r : RegId) : (State.start cfg img).reg r = 0 := by
  simp [State.reg]

/-- A file that parses starts a run on its image. -/
theorem boot_of_parse (cfg : Config) (file : List Byte) (c : Segments) (h : parseContainer file = .ok c) :
    State.boot cfg file = .ok (State.start cfg c.image) := by
  simp [State.boot, h]

/-- Settles O58: the run starts in `State.start`, whose fields are those of reset and whose image is `code ++ data`. -/
theorem bootGivesResetState : Obligations.BootGivesResetState := fun cfg file c h =>
  ⟨State.start cfg c.image, boot_of_parse cfg file c h, reg_start cfg c.image, rfl, rfl, rfl, rfl,
    read_ofBytes (c.code ++ c.data), ofBytes_length (c.code ++ c.data), rfl, rfl, rfl⟩

/-! ### The shape of a step that answers a next state (R59, R60, R72) -/

/-- The bind lemma of `andThen`: its two parts both answer a next state. -/
theorem andThen_eq_next (o : Host.Outcome State Fault Refusal) (f : State → Host.Outcome State Fault Refusal) (t : State) :
    andThen o f = .next t ↔ ∃ u, o = .next u ∧ f u = .next t := by
  cases o <;> simp [andThen]

/-- A step that answers a next state starts in status `Running`, and is a transition, the one after a prefix, and the
snapshot. -/
theorem step_eq_next (s t : State) :
    step s = .next t ↔ s.status = .running ∧
      ∃ w, (∃ u, transition s = .next u ∧ finishPrefixed u = .next w) ∧ emitSnapshot w = t := by
  cases hr : s.status <;> simp [step, runStep, hr, andThen_eq_next]

/-- The byte that a byte sequence read from `a` on begins with is the byte at `a`. -/
theorem read_of_readBytes_eq_cons (m : Memory) (a n : Nat) (b : Byte) (bs : List Byte)
    (h : m.readBytes a (n + 1) = b :: bs) : m.read a = some b := by
  cases hr : m.read a with
  | none => simp [Memory.readBytes, hr] at h
  | some c => simp_all [Memory.readBytes]

/-- The prefix is fetched from the marker byte only (R63). -/
theorem read_of_fetch_eq_prefixByte (s : State) (h : fetch s = .instr .prefixByte) :
    s.mem.read s.ip.toNat = some markerByte := by
  obtain ⟨-, rest, hd⟩ := fetch_eq_instr s _ h
  obtain ⟨-, hb⟩ := (decode_eq_prefixByte _ _ _).mp hd
  exact read_of_readBytes_eq_cons _ _ _ _ _ hb

/-- A step ends with one transition and the snapshot; the transition starts in the step's own state, or in the state that a
prefix standing at `IP` leaves. -/
theorem step_lastTransition (s t : State) (h : step s = .next t) :
    ∃ u w, (u = s ∨ s.mem.read s.ip.toNat = some markerByte ∧ u = afterPrefixOf s) ∧
      s.status = .running ∧ transition u = .next w ∧ t = emitSnapshot w := by
  obtain ⟨hr, -⟩ := (step_eq_next s t).mp h
  obtain ⟨w, hs, -, hw⟩ := step_cases s hr
  obtain rfl : t = emitSnapshot w := by simpa [h] using hs
  rcases hw with hw | ⟨hf, hw⟩
  · exact ⟨s, w, .inl rfl, hr, hw, rfl⟩
  · exact ⟨_, w, .inr ⟨read_of_fetch_eq_prefixByte s hf, rfl⟩, hr, hw, rfl⟩

/-! ### What no instruction and no step changes (R24, R41, R18) -/

theorem exec_keepsFixed (i : Instr) (s t : State) (h : exec i s = .next t) : s.KeepsFixed t := by
  obtain ⟨t', he, hc⟩ := exec_cases i s
  obtain rfl : t = t' := by simpa [h] using he
  rcases hc with ⟨-, rfl⟩ | ⟨d, v, n, -, rfl⟩ | ⟨k, -, rfl⟩ | ⟨-, rfl⟩ | ⟨-, rfl⟩ <;>
    exact keepsFixed_of_eq _ _ rfl rfl rfl

theorem transition_keepsFixed (s t : State) (h : transition s = .next t) : s.KeepsFixed t := by
  rcases transition_cases s with ⟨i, -, ht⟩ | ⟨a, -, ht⟩
  · exact exec_keepsFixed i s t (ht ▸ h)
  · obtain rfl : t = raise (.memoryFault a) s := by simpa [h] using ht
    exact (raised_raise s _).fixed

theorem step_keepsFixed (s t : State) (h : step s = .next t) : s.KeepsFixed t := by
  obtain ⟨u, w, hu, -, hw, rfl⟩ := step_lastTransition s t h
  have hsu : s.KeepsFixed u := by
    rcases hu with rfl | ⟨-, rfl⟩ <;> exact keepsFixed_of_eq _ _ rfl rfl rfl
  have hwt : w.KeepsFixed (emitSnapshot w) := keepsFixed_of_eq _ _ (by simp) (by simp) (by simp)
  exact keepsFixed_trans _ _ _ (keepsFixed_trans _ _ _ hsu (transition_keepsFixed u w hw)) hwt

/-- Settles O42, from the frame that every step keeps. -/
theorem stepKeepsConfigAndImage : Obligations.StepKeepsConfigAndImage := fun s t h =>
  have hfix := step_keepsFixed s t h
  ⟨hfix.cfg, hfix.mem, hfix.readByte⟩

/-! ### Which registers a step writes (R26) -/

/-- From status `Running` a transition goes on and writes at most one general register, or it ends the run and writes none, and
not `IP`. -/
theorem transition_registers (s t : State) (hr : s.status = .running) (h : transition s = .next t) :
    (t.status = .running ∧ ∃ d, s.SameRegsBut t d) ∨
    (t.status ≠ .running ∧ s.SameRegs t ∧ t.ip = s.ip) := by
  rcases transition_cases s with ⟨i, -, ht⟩ | ⟨a, -, ht⟩
  · obtain ⟨t', he, hc⟩ := exec_cases i s
    obtain rfl : t = t' := by simpa [ht, he] using h.symm
    rcases hc with ⟨-, rfl⟩ | ⟨d, v, n, -, rfl⟩ | ⟨k, -, rfl⟩ | ⟨-, rfl⟩ | ⟨-, rfl⟩
    · exact .inl ⟨hr, 0, fun _ _ => rfl⟩
    · exact .inl ⟨hr, d, fun r hrd => by simp [reg_setReg, hrd]⟩
    · exact .inr ⟨by simp, fun _ => rfl, rfl⟩
    · exact .inr ⟨by simp, fun _ => rfl, rfl⟩
    · exact .inl ⟨hr, 0, fun _ _ => rfl⟩
  · obtain rfl : t = raise (.memoryFault a) s := by simpa [h] using ht
    exact .inr ⟨by simp, fun _ => rfl, rfl⟩

/-- A step goes on and writes at most one general register, or it ends the run and writes none, and moves `IP` by a prefix
only. -/
theorem step_registers (s t : State) (h : step s = .next t) :
    (t.status = .running ∧ ∃ d, s.SameRegsBut t d) ∨
    (t.status ≠ .running ∧ s.SameRegs t ∧
      (t.ip = s.ip ∨ s.mem.read s.ip.toNat = some markerByte ∧ t.ip = s.ip + 1)) := by
  obtain ⟨u, w, hu, hr, hw, rfl⟩ := step_lastTransition s t h
  have hus : u.status = .running := by rcases hu with rfl | ⟨-, rfl⟩ <;> exact hr
  have hreg (r : RegId) : u.reg r = s.reg r := by rcases hu with rfl | ⟨-, rfl⟩ <;> rfl
  rcases transition_registers u w hus hw with ⟨hst, d, hd⟩ | ⟨hst, hregs, hip⟩
  · exact .inl ⟨by simpa using hst, d, fun r hrd => by simpa [← hreg] using hd r hrd⟩
  · refine .inr ⟨by simpa using hst, fun r => by simpa [← hreg] using hregs r, ?_⟩
    rw [emitSnapshot_ip, hip]
    rcases hu with rfl | ⟨hm, rfl⟩
    · exact .inl rfl
    · exact .inr ⟨hm, rfl⟩

/-- Settles O41: a step that goes on writes one register at most, and a step that ends the run none. -/
theorem stepWritesAtMostOneRegister : Obligations.StepWritesAtMostOneRegister := by
  intro s t _ _ h
  have hfix := step_keepsFixed s t h
  rcases step_registers s t h with ⟨hst, hd⟩ | ⟨-, hregs, hip⟩
  · exact ⟨hd, hfix, by simp [hst], by simp [hst]⟩
  · exact ⟨⟨0, fun r _ => hregs r⟩, hfix, fun _ _ => hregs, fun _ => ⟨hregs, hip⟩⟩

/-! ### What no instruction reads (R18, R108) -/

/-- The state with other values in the two places that no instruction reads: `SEG` (R18) and `DEBUG` (R108). -/
def State.withUnread (s : State) (v : Word) (dbg : Bool) : State :=
  { s with seg := v, cfg := { s.cfg with debug := dbg } }

theorem writeBack_withUnread (d : RegId) (n : Word) (r : AluResult) (s : State) (v : Word) (dbg : Bool) :
    writeBack d n r (s.withUnread v dbg) = (writeBack d n r s).withUnread v dbg := by
  cases r <;> rfl

theorem runClassB_withUnread (d : RegId) (src : Byte) (f : Word → AluResult) (s : State) (v : Word) (dbg : Bool) :
    runClassB d src f (s.withUnread v dbg) = (runClassB d src f s).withUnread v dbg := by
  unfold runClassB
  cases sourceId src with
  | none => rfl
  | some r => exact writeBack_withUnread d 2 (f (s.reg r)) s v dbg

/-- An instruction neither reads nor writes `SEG` and `DEBUG`: setting them before it or after it is the same. -/
theorem exec_withUnread (i : Instr) (s t : State) (v : Word) (dbg : Bool) (h : exec i s = .next t) :
    exec i (s.withUnread v dbg) = .next (t.withUnread v dbg) := by
  cases i with
  | movi d imm | addi d imm | subi d imm | muli d imm | divi d imm =>
    cases h
    exact congrArg Host.Outcome.next (writeBack_withUnread d 5 _ s v dbg)
  | add d src | sub d src | mul d src | div d src | mov d src =>
    cases h
    exact congrArg Host.Outcome.next (runClassB_withUnread d src _ s v dbg)
  | prefixByte | halt | reservedC c | unknown0 x | unknownB x | unknownC x | unknownD x | unknownE x =>
    cases h
    rfl

/-- Fetching reads neither. -/
@[simp] theorem fetch_withUnread (s : State) (v : Word) (dbg : Bool) : fetch (s.withUnread v dbg) = fetch s := rfl

theorem transition_withUnread (s t : State) (v : Word) (dbg : Bool) (h : transition s = .next t) :
    transition (s.withUnread v dbg) = .next (t.withUnread v dbg) := by
  cases hf : fetch s with
  | instr i =>
    simp only [transition, fetch_withUnread, hf] at h ⊢
    exact exec_withUnread i s t v dbg h
  | raises k =>
    simp only [transition, fetch_withUnread, hf] at h ⊢
    cases h
    rfl

theorem finishPrefixed_withUnread (s t : State) (v : Word) (dbg : Bool) (h : finishPrefixed s = .next t) :
    finishPrefixed (s.withUnread v dbg) = .next (t.withUnread v dbg) := by
  have hp : (s.withUnread v dbg).phase = s.phase := rfl
  cases hs : s.phase <;> simp only [finishPrefixed, hp, hs] at h ⊢
  case boundary => cases h; rfl
  case afterPrefix => exact transition_withUnread s t v dbg h

/-- The end of a step changes the snapshots and nothing else (R108). -/
theorem emitSnapshot_eq (s : State) : emitSnapshot s = { s with snapshots := (emitSnapshot s).snapshots } := by
  unfold emitSnapshot
  split <;> rfl

/-- A step with other values of `SEG` and `DEBUG` does the same to everything but those two and the snapshots. -/
theorem step_withUnread (s t : State) (v : Word) (dbg : Bool) (h : step s = .next t) :
    ∃ snaps, step (s.withUnread v dbg) = .next { t.withUnread v dbg with snapshots := snaps } := by
  obtain ⟨hr, w, ⟨u, hu, hw⟩, rfl⟩ := (step_eq_next s t).mp h
  have hu' := transition_withUnread s u v dbg hu
  have hw' := finishPrefixed_withUnread u w v dbg hw
  refine ⟨(emitSnapshot (w.withUnread v dbg)).snapshots, (step_eq_next _ _).mpr ⟨hr, _, ⟨_, hu', hw'⟩, ?_⟩⟩
  rw [emitSnapshot_eq (w.withUnread v dbg), emitSnapshot_eq w]
  rfl

/-- Where the parameters are kept, `withUnread` at the old `DEBUG` sets `SEG` alone (R24). -/
theorem withUnread_of_keepsFixed (s t : State) (v : Word) (h : s.KeepsFixed t) :
    t.withUnread v s.cfg.debug = { t with seg := v } := by
  rw [← h.cfg]
  rfl

/-- Settles O43: instructions and steps keep `SEG`, and commute with setting it. -/
theorem segIsUnused : Obligations.SegIsUnused := by
  refine ⟨rfl, fun i s t v h => ?_, fun s t v h => ?_⟩
  · have hfix := exec_keepsFixed i s t h
    have hexec := exec_withUnread i s t v s.cfg.debug h
    rw [withUnread_of_keepsFixed s t v hfix] at hexec
    exact ⟨hfix.seg, hexec⟩
  · have hfix := step_keepsFixed s t h
    have hstep := step_withUnread s t v s.cfg.debug h
    rw [withUnread_of_keepsFixed s t v hfix] at hstep
    exact ⟨hfix.seg, hstep⟩

end Sys2Proof.Machine

/-! ## The encoding: the byte layouts of the three classes -/

namespace Sys2Proof.Machine

/-! ### Opcode bytes (R12, R47) -/

/-- The number `16 * op + l` of the formats is the opcode byte of its two nibbles, `(op << 4) | l` (R12). -/
theorem ofNat_eq_opcodeByte (op : Nat) (l : Nibble) :
    BitVec.ofNat 8 (16 * op + l.toNat) = opcodeByte (BitVec.ofNat 4 op) l := by
  have hl := l.isLt
  apply BitVec.eq_of_toNat_eq
  rw [opcodeByte, BitVec.toNat_append, ← Nat.shiftLeft_add_eq_or_of_lt hl, Nat.shiftLeft_eq,
    BitVec.toNat_ofNat, BitVec.toNat_ofNat]
  omega

@[simp] theorem toNat_nibbleOfReg (d : RegId) : (nibbleOfReg d).toNat = d.val := by
  simp [nibbleOfReg]

/-- The opcode byte of an operation on `Rd`. -/
theorem ofNat_reg_eq_opcodeByte (op : Nat) (d : RegId) :
    BitVec.ofNat 8 (16 * op + d.val) = opcodeByte (BitVec.ofNat 4 op) (nibbleOfReg d) := by
  rw [← ofNat_eq_opcodeByte, toNat_nibbleOfReg]

/-- The marker has the value of the opcode byte of SUBI R2, and of no other (R51). -/
theorem opcodeByte_eq_markerByte (h l : Nibble) : opcodeByte h l = markerByte ↔ h = 3 ∧ l = 2 := by
  revert h l; decide

/-- The little-endian reading of four bytes as a number: it fits the word (R48). -/
theorem toNat_le32 (b0 b1 b2 b3 : Byte) :
    (le32 b0 b1 b2 b3).toNat = b0.toNat + 256 * b1.toNat + 65536 * b2.toNat + 16777216 * b3.toNat := by
  have h0 := b0.isLt
  have h1 := b1.isLt
  have h2 := b2.isLt
  have h3 := b3.isLt
  rw [le32, BitVec.toNat_ofNat, Nat.mod_eq_of_lt (by omega)]

/-! ### The instruction of a whole step (R54, R59) -/

/-- Behind the marker every byte is an opcode byte (R63, R64). -/
@[simp] theorem decodeInstr_marker (b : Byte) (rest : List Byte) :
    decodeInstr (markerByte :: b :: rest) = decodeOpcode b rest := by
  simp [decodeInstr]

/-- Without the marker the first byte is the opcode byte (R50). -/
theorem decodeInstr_of_ne (b : Byte) (rest : List Byte) (h : b ≠ markerByte) :
    decodeInstr (b :: rest) = decodeOpcode b rest := by
  unfold decodeInstr
  rw [decode_boundary_of_ne b rest h]
  rcases decodeOpcode_cases b rest with ⟨i, r, hi, hd⟩ | ⟨k, -, -, hd⟩
  · rw [hd]
    split
    next heq => exact absurd (DecodeResult.ok.inj heq).1 hi
    next => rfl
  · rw [hd]

/-! ### The operations of each class by their number (R44, R45, R50) -/

/-- `op` is the number of the Class A operation whose instructions `mk` makes. -/
def IsClassAOp (op : Nat) (mk : RegId → Word → Instr) : Prop :=
  (op = 1 ∧ mk = .movi) ∨ (op = 2 ∧ mk = .addi) ∨ (op = 3 ∧ mk = .subi) ∨ (op = 4 ∧ mk = .muli) ∨ (op = 5 ∧ mk = .divi)

/-- `op` is the number of the Class B operation whose instructions `mk` makes. -/
def IsClassBOp (op : Nat) (mk : RegId → Byte → Instr) : Prop :=
  (op = 6 ∧ mk = .add) ∨ (op = 7 ∧ mk = .sub) ∨ (op = 8 ∧ mk = .mul) ∨ (op = 9 ∧ mk = .div) ∨ (op = 10 ∧ mk = .mov)

/-- The top nibble 1..5 selects the Class A operation (R66). -/
theorem decodeOpcode_classA {op : Nat} {mk : RegId → Word → Instr} (h : IsClassAOp op mk) (l : Nibble) (bs : List Byte) :
    decodeOpcode (opcodeByte (BitVec.ofNat 4 op) l) bs = decodeClassA mk (opcodeByte (BitVec.ofNat 4 op) l) bs := by
  rcases h with ⟨rfl, rfl⟩ | ⟨rfl, rfl⟩ | ⟨rfl, rfl⟩ | ⟨rfl, rfl⟩ | ⟨rfl, rfl⟩ <;> simp [decodeOpcode]

/-- The top nibble 6..10 selects the Class B operation (R68). -/
theorem decodeOpcode_classB {op : Nat} {mk : RegId → Byte → Instr} (h : IsClassBOp op mk) (l : Nibble) (bs : List Byte) :
    decodeOpcode (opcodeByte (BitVec.ofNat 4 op) l) bs = decodeClassB mk (opcodeByte (BitVec.ofNat 4 op) l) bs := by
  rcases h with ⟨rfl, rfl⟩ | ⟨rfl, rfl⟩ | ⟨rfl, rfl⟩ | ⟨rfl, rfl⟩ | ⟨rfl, rfl⟩ <;> simp [decodeOpcode]

/-- The top nibble `0xF` is Class C (R69). -/
theorem decodeOpcode_classC (l : Nibble) (bs : List Byte) :
    decodeOpcode (opcodeByte 0xF l) bs = decodeClassC (opcodeByte 0xF l) bs := by
  simp [decodeOpcode]

/-- No opcode byte of Class B is the marker. -/
theorem opcodeByte_classB_ne_markerByte {op : Nat} {mk : RegId → Byte → Instr} (h : IsClassBOp op mk) (l : Nibble) :
    opcodeByte (BitVec.ofNat 4 op) l ≠ markerByte := by
  rw [Ne, opcodeByte_eq_markerByte]
  rcases h with ⟨rfl, -⟩ | ⟨rfl, -⟩ | ⟨rfl, -⟩ | ⟨rfl, -⟩ | ⟨rfl, -⟩ <;> simp

/-- Every Class B instruction runs some operation on its source's value (R68). -/
theorem exec_classB {op : Nat} {mk : RegId → Byte → Instr} (h : IsClassBOp op mk) (d : RegId) (src : Byte) (s : State) :
    ∃ f, exec (mk d src) s = .next (runClassB d src f s) := by
  rcases h with ⟨-, rfl⟩ | ⟨-, rfl⟩ | ⟨-, rfl⟩ | ⟨-, rfl⟩ | ⟨-, rfl⟩ <;> exact ⟨_, rfl⟩

/-! ### The formats -/

/-- Settles O16: behind the marker the top nibble selects the operation, and the immediate is `le32` of the four bytes. -/
theorem classAFormat : Obligations.ClassAFormat := by
  intro d i0 i1 i2 i3 rest op mk (h : IsClassAOp op mk)
  refine ⟨le32 i0 i1 i2 i3, ?_, toNat_le32 i0 i1 i2 i3⟩
  rw [ofNat_reg_eq_opcodeByte, ← markerByte, decodeInstr_marker, decodeOpcode_classA h]
  simp [decodeClassA]

/-- Settles O17: the opcode byte is never the marker, so it selects the operation at once; the source byte goes to the instruction
as it is, and the check that comes before any register read refuses 16..255. -/
theorem classBFormat : Obligations.ClassBFormat := by
  intro d src rest op mk (h : IsClassBOp op mk)
  constructor
  · rw [ofNat_reg_eq_opcodeByte, decodeInstr_of_ne _ _ (opcodeByte_classB_ne_markerByte h _), decodeOpcode_classB h]
    simp [decodeClassB]
  · intro hsrc s
    obtain ⟨f, he⟩ := exec_classB h d src s
    exact ⟨_, he, by rw [runClassB_internalFault s d src f hsrc, raise_status]⟩

/-- Settles O18: the top nibble `0xF` leaves the split to the low nibble, in the decoder and in `isUnknownOpcode` alike. -/
theorem classCFormat : Obligations.ClassCFormat := by
  intro c rest
  have hb : BitVec.ofNat 8 (0xF0 + c.toNat) = opcodeByte 0xF c := ofNat_eq_opcodeByte 15 c
  rw [hb]
  constructor
  · rw [decodeInstr_of_ne _ _ (by simp [opcodeByte_eq_markerByte]), decodeOpcode_classC, decodeClassC, lo_opcodeByte]
    split <;> rfl
  · simp [isUnknownOpcode]

end Sys2Proof.Machine

/-! ## The faults of fetching -/

namespace Sys2Proof.Machine

/-- Fetching at an `IP` above `M` (R61), or where no byte is (R62), raises `MemoryFault(IP)`. -/
theorem fetch_memoryFault_ip (s : State) (h : s.cfg.M < s.ip.toNat ∨ s.mem.read s.ip.toNat = none) :
    fetch s = .raises (.memoryFault s.ip.toNat) := by
  by_cases hM : s.cfg.M < s.ip.toNat
  · simp [fetch, hM]
  · have hread : s.mem.readBytes s.ip.toNat 5 = [] :=
      readBytes_stop s.mem s.ip.toNat [] 5 (by simp) (by simp) (h.resolve_left hM)
    simp [fetch, hM, (decode_eq_empty _ _).mpr hread]

/-- A fault of the first fetch ends the step: the faulted state consumes no prefix and emits no snapshot (R99, R108). -/
theorem step_of_fetch_raises (s : State) (k : FaultKind) (hr : s.status = .running) (hf : fetch s = .raises k) :
    step s = .next (raise k s) := by
  have ht : transition s = .next (raise k s) := by simp [transition, hf]
  exact (step_eq_next _ _).mpr ⟨hr, raise k s, ⟨raise k s, ht, rfl⟩, emitSnapshot_of_faulted _ k rfl⟩

/-- Settles O49: an image of length `L` has no byte at an `IP >= L`, so the first fetch of the step raises the fault. -/
theorem firstByteUnbackedFaults : Obligations.FirstByteUnbackedFaults := by
  intro s hs himg hL
  have hread : s.mem.read s.ip.toNat = none := isImage_read_none s.mem himg s.ip.toNat hL
  exact ⟨_, step_of_fetch_raises s _ hs.running (fetch_memoryFault_ip s (.inr hread)), rfl⟩

end Sys2Proof.Machine

/-! ## Class A: results, frames and fetch faults (R77 to R82) -/

namespace Sys2Proof.Machine

/-! ### Where a step fetches its opcode byte (R60, R63) -/

/-- The state in which the step from `s` fetches its opcode byte: `s` itself, or what the prefix at `IP` leaves. -/
def opcodeState (s : State) : State :=
  if s.mem.read s.ip.toNat = some markerByte then afterPrefixOf s else s

theorem opcodeState_of_marker (s : State) (h : s.mem.read s.ip.toNat = some markerByte) :
    opcodeState s = afterPrefixOf s := if_pos h

theorem opcodeState_of_not_marker (s : State) (h : s.mem.read s.ip.toNat ≠ some markerByte) :
    opcodeState s = s := if_neg h

@[simp] theorem opcodeState_mem (s : State) : (opcodeState s).mem = s.mem := by
  unfold opcodeState; split <;> rfl

@[simp] theorem opcodeState_cfg (s : State) : (opcodeState s).cfg = s.cfg := by
  unfold opcodeState; split <;> rfl

@[simp] theorem reg_opcodeState (s : State) (r : RegId) : (opcodeState s).reg r = s.reg r := by
  unfold opcodeState; split <;> rfl

/-- A backed address begins the bytes read from it on. -/
theorem readBytes_eq_cons (m : Memory) (a n : Nat) (b : Byte) (h : m.read a = some b) :
    m.readBytes a (n + 1) = b :: m.readBytes (a + 1) n := by
  simp [Memory.readBytes, h]

/-- The marker at an `IP` that passes the bound check is fetched as the prefix (R63). -/
theorem fetch_marker (s : State) (h : s.Ready) (hm : s.mem.read s.ip.toNat = some markerByte) :
    fetch s = .instr .prefixByte := by
  refine fetch_of_decode s _ (s.mem.readBytes (s.ip.toNat + 1) 4) h.bound ?_
  rw [h.phase, readBytes_eq_cons _ _ _ _ hm, decode_marker]

/-- A step is the transition that fetches its opcode byte, and the snapshot (R72). -/
theorem step_of_transition_opcodeState (s w : State) (h : s.Ready) (hw : transition (opcodeState s) = .next w) :
    step s = .next (emitSnapshot w) := by
  obtain ⟨t, hstep, hp, ht⟩ := step_cases s h.running
  suffices transition (opcodeState s) = .next t by
    obtain rfl : w = t := by simpa [hw] using this
    exact hstep
  by_cases hm : s.mem.read s.ip.toNat = some markerByte
  · rw [opcodeState_of_marker s hm]
    rcases ht with ht | ⟨-, ht⟩
    · have htp : transition s = .next (afterPrefixOf s) := by rw [transition, fetch_marker s h hm]; rfl
      obtain rfl : t = afterPrefixOf s := by simpa [ht] using htp
      exact absurd hp (by simp [afterPrefixOf])
    · exact ht
  · rw [opcodeState_of_not_marker s hm]
    exact ht.resolve_right fun hf => hm (read_of_fetch_eq_prefixByte s hf.1)

/-- The opcode byte's address is `IP` in the state that fetches it. -/
theorem opcodeState_ip {s : State} {q : Nat} {b : Byte} (h : s.OpcodeAt q b) : (opcodeState s).ip.toNat = q := by
  obtain ⟨hs, hread, ⟨rfl, hb⟩ | ⟨rfl, hm, -⟩⟩ := h
  · rw [opcodeState_of_not_marker s (by simp [hread, hb])]
  · rw [opcodeState_of_marker s hm]
    exact ip_add_toNat s 1 hs.bound (by decide)

theorem opcodeAt_le_memSize {s : State} {q : Nat} {b : Byte} (h : s.OpcodeAt q b) : q ≤ s.cfg.M := by
  obtain ⟨hs, -, ⟨rfl, -⟩ | ⟨-, -, hq⟩⟩ := h
  · exact hs.bound
  · exact hq

/-- The byte of `OpcodeAt` is classified as an opcode byte, in either phase (R60, R65). -/
theorem decode_opcodeState {s : State} {q : Nat} {b : Byte} (h : s.OpcodeAt q b) :
    decode (opcodeState s).phase (s.mem.readBytes q 5) = decodeOpcode b (s.mem.readBytes (q + 1) 4) := by
  obtain ⟨hs, hread, hq⟩ := h
  rw [readBytes_eq_cons _ _ _ _ hread]
  rcases hq with ⟨rfl, hb⟩ | ⟨-, hm, -⟩
  · rw [opcodeState_of_not_marker s (by simp [hread, hb]), hs.phase, decode_boundary_of_ne _ _ hb]
  · rw [opcodeState_of_marker s hm]
    exact decode_afterPrefix _ _

/-! ### Unbacked operand bytes (R82) -/

/-- Reading several bytes stops at the first unbacked one. -/
theorem readBytes_length_eq (m : Memory) (a k n : Nat) (hk : k ≤ n) (hb : ∀ j, j < k → (m.read (a + j)).isSome)
    (hn : m.read (a + k) = none) : (m.readBytes a n).length = k := by
  induction k generalizing a n with
  | zero => rw [readBytes_stop m a [] n (by simp) (Nat.zero_le n) hn]; rfl
  | succ k ih =>
    obtain ⟨n, rfl⟩ : ∃ n', n = n' + 1 := ⟨n - 1, by omega⟩
    obtain ⟨b, hr⟩ := Option.isSome_iff_exists.mp (hb 0 (by omega))
    have htail : (m.readBytes (a + 1) n).length = k := by
      refine ih (a + 1) n (by omega) (fun j hj => ?_) ?_
      · rw [Nat.add_assoc, Nat.add_comm 1]; exact hb (j + 1) (by omega)
      · rw [Nat.add_assoc, Nat.add_comm 1]; exact hn
    rw [readBytes_eq_cons m a n b hr, List.length_cons, htail]

/-- A missing operand byte is a `MemoryFault` at its address (R82, R83). -/
theorem fetch_of_decode_missing (s : State) (k : Nat) (hM : s.ip.toNat ≤ s.cfg.M)
    (h : decode s.phase (s.mem.readBytes s.ip.toNat 5) = .missing k) :
    fetch s = .raises (.memoryFault (s.ip.toNat + k)) := by
  simp [fetch, Nat.not_lt.mpr hM, h]

/-- The numbers 1..5 are those of the Class A operations. -/
theorem exists_isClassAOp (op : Nat) (h1 : 1 ≤ op) (h5 : op ≤ 5) : ∃ mk, IsClassAOp op mk := by
  obtain rfl | rfl | rfl | rfl | rfl : op = 1 ∨ op = 2 ∨ op = 3 ∨ op = 4 ∨ op = 5 := by omega
  all_goals simp [IsClassAOp]

/-- With fewer than four bytes behind it, a Class A opcode byte names the first missing one (R82). -/
theorem decodeOpcode_classA_missing (b : Byte) (bs : List Byte) (h1 : 1 ≤ (hi b).toNat) (h5 : (hi b).toNat ≤ 5)
    (hl : bs.length < 4) : decodeOpcode b bs = .missing (1 + bs.length) := by
  obtain ⟨mk, hmk⟩ := exists_isClassAOp _ h1 h5
  have hdec := decodeOpcode_classA hmk (lo b) bs
  rw [BitVec.ofNat_toNat, BitVec.setWidth_eq, opcodeByte_hi_lo] at hdec
  rw [hdec]
  rcases decodeClassA_cases mk b bs with ⟨i0, i1, i2, i3, rest, rfl, -⟩ | ⟨-, h⟩
  · simp only [List.length_cons] at hl; omega
  · exact h

/-- A missing operand byte of the opcode byte at `q` ends the step with its `MemoryFault` (R82, R83, R99). -/
theorem step_of_operand_missing {s : State} {q k : Nat} {b : Byte} (h : s.OpcodeAt q b)
    (hk : decodeOpcode b (s.mem.readBytes (q + 1) 4) = .missing k) :
    step s = .next (raise (.memoryFault (q + k)) (opcodeState s)) := by
  have hq := opcodeState_ip h
  have hf : fetch (opcodeState s) = .raises (.memoryFault (q + k)) := by
    rw [← hq]
    refine fetch_of_decode_missing _ k ?_ ?_
    · rw [hq, opcodeState_cfg]; exact opcodeAt_le_memSize h
    · rw [hq, opcodeState_mem, decode_opcodeState h, hk]
  have ht : transition (opcodeState s) = .next (raise (.memoryFault (q + k)) (opcodeState s)) := by rw [transition, hf]
  rw [step_of_transition_opcodeState s _ h.1 ht, emitSnapshot_of_faulted _ _ rfl]

/-- Settles O51: the decoder finds the `k - 1` bytes before the unbacked one and names its offset `k`, before the operation reads
an operand. -/
theorem immediateByteUnbackedFaults : Obligations.ImmediateByteUnbackedFaults := by
  intro s q k b h h1 h5 hk1 hk4 hbacked hnone
  have hlen : (s.mem.readBytes (q + 1) 4).length = k - 1 := by
    refine readBytes_length_eq _ _ _ _ (by omega) (fun j hj => ?_) ?_
    · rw [Nat.add_assoc]; exact hbacked (1 + j) (by omega) (by omega)
    · rw [show q + 1 + (k - 1) = q + k by omega]; exact hnone
  have hdec : decodeOpcode b (s.mem.readBytes (q + 1) 4) = .missing k := by
    rw [decodeOpcode_classA_missing b _ h1 h5 (by omega), hlen, show 1 + (k - 1) = k by omega]
  exact ⟨_, step_of_operand_missing h hdec, rfl, reg_opcodeState s, opcodeState_ip h⟩

/-- Each Class A operation has the fetch faults of R82. -/
theorem classAFetchFaults (op : Nat) (h1 : 1 ≤ op) (h5 : op ≤ 5) : ClassAFetchFaults op := by
  rintro s q k b h rfl
  exact immediateByteUnbackedFaults s q k b h h1 h5

/-! ### The operations (R77 to R81) -/

/-- An instruction that runs as Class A on an ALU value assigns it, and moves `IP` by 5. -/
theorem exec_classA_assigned {i : Instr} {s : State} {d : RegId} {r : AluResult} {v : Word} {m : Nat}
    (he : exec i s = .next (runClassA d r s)) (hr : r = .value v) (hm : v.toNat = m) :
    ∃ t, exec i s = .next t ∧ s.Assigned t d m 5 := by
  obtain ⟨t, rfl, ht⟩ := runClassA_value s d r v m hr hm
  exact ⟨_, he, ht⟩

/-- An instruction that runs as Class A on an ALU fault raises it, and keeps `Rd`. -/
theorem exec_classA_faulted {i : Instr} {s : State} {d : RegId} {r : AluResult} {k : FaultKind}
    (he : exec i s = .next (runClassA d r s)) (hr : r = .raises k) :
    ∃ t, exec i s = .next t ∧ s.FaultedKeeping t d k := by
  rw [runClassA_raises s d r k hr] at he
  exact ⟨_, he, rfl, rfl⟩

/-- Settles O1: the immediate is the value assigned. -/
theorem moviAssignsImmediate : Obligations.MoviAssignsImmediate :=
  ⟨fun _ _ _ => ⟨rfl, exec_classA_assigned rfl rfl rfl⟩, classAFetchFaults 1 (by decide) (by decide)⟩

/-- Settles O2: `add_W` answers the sum modulo `2^W`, or `Overflow`. -/
theorem addiAddsImmediate : Obligations.AddiAddsImmediate := by
  refine ⟨fun s d imm => ⟨rfl, fun h => ?_, fun ⟨hovf, h⟩ => ?_⟩, classAFetchFaults 2 (by decide) (by decide)⟩
  · exact exec_classA_assigned rfl (addW_value _ _ _ h) (BitVec.toNat_add _ _)
  · exact exec_classA_faulted rfl (by rw [hovf, addW_raises _ _ h])

/-- Settles O3: `sub_W` answers the difference, `2^W` more of it under `Wrap` where it is below 0, or `Overflow`. -/
theorem subiSubtractsImmediate : Obligations.SubiSubtractsImmediate := by
  refine ⟨fun s d imm => ⟨rfl, fun h => ?_, fun ⟨hovf, h⟩ => ?_, fun ⟨hovf, h⟩ => ?_⟩,
    classAFetchFaults 3 (by decide) (by decide)⟩
  · exact exec_classA_assigned rfl (subW_value _ _ _ (.inr h)) (BitVec.toNat_sub_of_le h)
  · have hd : (s.reg d - imm).toNat = (s.reg d).toNat + 2 ^ 32 - imm.toNat := by
      rw [BitVec.toNat_sub]
      have := imm.isLt
      omega
    exact exec_classA_assigned rfl (subW_value _ _ _ (.inl hovf)) hd
  · exact exec_classA_faulted rfl (by rw [hovf, subW_raises _ _ h])

/-- Settles O4: `mul_W` answers the product modulo `2^W`, or `Overflow`. -/
theorem muliMultipliesByImmediate : Obligations.MuliMultipliesByImmediate := by
  refine ⟨fun s d imm => ⟨rfl, fun h => ?_, fun ⟨hovf, h⟩ => ?_⟩, classAFetchFaults 4 (by decide) (by decide)⟩
  · exact exec_classA_assigned rfl (mulW_value _ _ _ h) (BitVec.toNat_mul _ _)
  · exact exec_classA_faulted rfl (by rw [hovf, mulW_raises _ _ h])

/-- Settles O5: `div_W` answers the quotient rounded down, or `DivideByZero`. -/
theorem diviDividesByImmediate : Obligations.DiviDividesByImmediate := by
  refine ⟨fun s d imm => ⟨rfl, fun h => ?_, fun h => ?_⟩, classAFetchFaults 5 (by decide) (by decide)⟩
  · exact exec_classA_assigned rfl (divW_value _ _ h) BitVec.toNat_udiv
  · exact exec_classA_faulted rfl (by rw [h, divW_zero])

end Sys2Proof.Machine

/-! ## Class B: results, frames and source-byte faults (R83 to R90) -/

namespace Sys2Proof.Machine

/-! ### Decoding and running a Class B opcode byte (R60, R68) -/

/-- The numbers 6..10 are those of the Class B operations. -/
theorem exists_isClassBOp (op : Nat) (h6 : 6 ≤ op) (h10 : op ≤ 10) : ∃ mk, IsClassBOp op mk := by
  obtain rfl | rfl | rfl | rfl | rfl : op = 6 ∨ op = 7 ∨ op = 8 ∨ op = 9 ∨ op = 10 := by omega
  all_goals simp [IsClassBOp]

/-- A top nibble of 6..10 makes the byte the opcode byte of a Class B operation (R68). -/
theorem decodeOpcode_eq_decodeClassB (b : Byte) (bs : List Byte) (h6 : 6 ≤ (hi b).toNat) (h10 : (hi b).toNat ≤ 10) :
    ∃ mk, IsClassBOp (hi b).toNat mk ∧ decodeOpcode b bs = decodeClassB mk b bs := by
  obtain ⟨mk, hmk⟩ := exists_isClassBOp _ h6 h10
  have hdec := decodeOpcode_classB hmk (lo b) bs
  rw [BitVec.ofNat_toNat, BitVec.setWidth_eq, opcodeByte_hi_lo] at hdec
  exact ⟨mk, hmk, hdec⟩

/-- Where the bytes from the opcode byte on decode to an instruction, the step is that instruction and the snapshot (R72). -/
theorem step_of_opcode_decoded {s w : State} {q : Nat} {b : Byte} {i : Instr} {rest : List Byte} (h : s.OpcodeAt q b)
    (hd : decodeOpcode b (s.mem.readBytes (q + 1) 4) = .ok i rest) (he : exec i (opcodeState s) = .next w) :
    step s = .next (emitSnapshot w) := by
  have hq := opcodeState_ip h
  have hf : fetch (opcodeState s) = .instr i := by
    refine fetch_of_decode _ i rest ?_ ?_
    · rw [hq, opcodeState_cfg]; exact opcodeAt_le_memSize h
    · rw [hq, opcodeState_mem, decode_opcodeState h, hd]
  have ht : transition (opcodeState s) = .next w := by rw [transition, hf]; exact he
  exact step_of_transition_opcodeState s w h.1 ht

/-! ### The source byte (R83, R90) -/

/-- An unbacked source byte ends the step with its `MemoryFault` (R83). -/
theorem step_of_sourceByte_unbacked {s : State} {q : Nat} {b : Byte} (h : s.OpcodeAt q b) (h6 : 6 ≤ (hi b).toNat)
    (h10 : (hi b).toNat ≤ 10) (hnone : s.mem.read (q + 1) = none) :
    step s = .next (raise (.memoryFault (q + 1)) (opcodeState s)) := by
  have hread : s.mem.readBytes (q + 1) 4 = [] := readBytes_stop s.mem (q + 1) [] 4 (by simp) (by simp) hnone
  obtain ⟨mk, -, hdec⟩ := decodeOpcode_eq_decodeClassB b [] h6 h10
  exact step_of_operand_missing h (by rw [hread, hdec]; rfl)

/-- A source byte above 15 ends the step with `InternalFault`, in the state that fetched the opcode byte (R83). -/
theorem step_of_sourceByte_above {s : State} {q : Nat} {b src : Byte} (h : s.OpcodeAt q b) (h6 : 6 ≤ (hi b).toNat)
    (h10 : (hi b).toNat ≤ 10) (hread : s.mem.read (q + 1) = some src) (hsrc : 15 < src.toNat) :
    step s = .next (raise (.internalFault src) (opcodeState s)) := by
  obtain ⟨mk, hmk, hdec⟩ := decodeOpcode_eq_decodeClassB b (src :: s.mem.readBytes (q + 1 + 1) 3) h6 h10
  have hd : decodeOpcode b (s.mem.readBytes (q + 1) 4) = .ok (mk (regOfNibble (lo b)) src) (s.mem.readBytes (q + 1 + 1) 3) := by
    rw [readBytes_eq_cons s.mem (q + 1) 3 src hread]
    exact hdec
  obtain ⟨f, he⟩ := exec_classB hmk (regOfNibble (lo b)) src (opcodeState s)
  rw [runClassB_internalFault _ _ src f hsrc] at he
  rw [step_of_opcode_decoded h hd he, emitSnapshot_of_faulted _ _ rfl]

/-- Which byte is the opcode byte does not depend on the general registers. -/
theorem opcodeAt_withRegs {s : State} {q : Nat} {b : Byte} (h : s.OpcodeAt q b) (rs : Vector Word 16) :
    State.OpcodeAt { s with regs := rs } q b :=
  ⟨⟨h.1.running, h.1.phase, h.1.bound⟩, h.2⟩

/-- A prefix leaves the general registers alone, whatever they hold (R63). -/
theorem opcodeState_withRegs (s : State) (rs : Vector Word 16) :
    opcodeState { s with regs := rs } = { opcodeState s with regs := rs } := by
  unfold opcodeState
  split <;> rfl

/-- Settles O52: the decoder misses the source byte, or the id check refuses it; either fault leaves the state that fetched the
opcode byte, whose general registers are those of the start of the step. -/
theorem sourceByteFaults : Obligations.SourceByteFaults := by
  refine fun s q b h h6 h10 => ⟨fun hnone => ?_, fun src hread hsrc => ?_⟩
  · exact ⟨_, step_of_sourceByte_unbacked h h6 h10 hnone, rfl⟩
  · refine ⟨_, step_of_sourceByte_above h h6 h10 hread hsrc, rfl, reg_opcodeState s, opcodeState_ip h, fun rs => ?_⟩
    rw [step_of_sourceByte_above (opcodeAt_withRegs h rs) h6 h10 hread hsrc, opcodeState_withRegs]
    rfl

/-- Each Class B operation has the fetch fault of R83. -/
theorem classBFetchFaults (op : Nat) (h6 : 6 ≤ op) (h10 : op ≤ 10) : ClassBFetchFaults op := by
  rintro s q b h rfl
  exact (sourceByteFaults s q b h h6 h10).1

/-! ### The operations (R84 to R88) -/

section
variable {i : Instr} {s : State} {d : RegId} {src : Byte} {f : Word → AluResult}

/-- An instruction that runs as Class B on an ALU value assigns it, and moves `IP` by 2. -/
theorem exec_classB_assigned {r : RegId} {v : Word} {m : Nat} (he : exec i s = .next (runClassB d src f s))
    (hs : r.val = src.toNat) (hr : f (s.reg r) = .value v) (hm : v.toNat = m) :
    ∃ t, exec i s = .next t ∧ s.Assigned t d m 2 := by
  obtain ⟨t, rfl, ht⟩ := runClassB_value s d r src f v m hs hr hm
  exact ⟨_, he, ht⟩

/-- An instruction that runs as Class B on an ALU fault raises it, and keeps `Rd`. -/
theorem exec_classB_faulted {r : RegId} {k : FaultKind} (he : exec i s = .next (runClassB d src f s))
    (hs : r.val = src.toNat) (hr : f (s.reg r) = .raises k) :
    ∃ t, exec i s = .next t ∧ s.FaultedKeeping t d k := by
  rw [runClassB_raises s d r src f k hs hr] at he
  exact ⟨_, he, rfl, rfl⟩

/-- An instruction that runs as Class B raises `InternalFault` on a source byte above 15. -/
theorem exec_classB_internalFault (he : exec i s = .next (runClassB d src f s)) (hsrc : 15 < src.toNat) :
    ∃ t, exec i s = .next t ∧ t.status = .faulted (.internalFault src) := by
  rw [runClassB_internalFault s d src f hsrc] at he
  exact ⟨_, he, rfl⟩

end

/-- The word difference below 0: `2^W` more than the exact one (R75). -/
theorem toNat_sub_of_underflow (a b : Word) (h : a.toNat < b.toNat) : (a - b).toNat = a.toNat + 2 ^ 32 - b.toNat := by
  rw [BitVec.toNat_sub]
  have := b.isLt
  omega

/-- Settles O6: `add_W` answers the sum modulo `2^W`, or `Overflow`; the id check refuses a source byte above 15. -/
theorem addAddsRegister : Obligations.AddAddsRegister := by
  refine ⟨fun s d r src => ⟨rfl, fun ⟨hs, h⟩ => ?_, fun ⟨hs, hovf, h⟩ => ?_, exec_classB_internalFault rfl⟩,
    classBFetchFaults 6 (by decide) (by decide)⟩
  · exact exec_classB_assigned rfl hs (addW_value _ _ _ h) (BitVec.toNat_add _ _)
  · exact exec_classB_faulted rfl hs (by rw [hovf, addW_raises _ _ h])

/-- Settles O7: `sub_W` answers the difference, `2^W` more of it under `Wrap` where it is below 0, or `Overflow`; the id check
refuses a source byte above 15. -/
theorem subSubtractsRegister : Obligations.SubSubtractsRegister := by
  refine ⟨fun s d r src => ⟨rfl, fun ⟨hs, h⟩ => ?_, fun ⟨hs, hovf, h⟩ => ?_, fun ⟨hs, hovf, h⟩ => ?_,
    exec_classB_internalFault rfl⟩, classBFetchFaults 7 (by decide) (by decide)⟩
  · exact exec_classB_assigned rfl hs (subW_value _ _ _ (.inr h)) (BitVec.toNat_sub_of_le h)
  · exact exec_classB_assigned rfl hs (subW_value _ _ _ (.inl hovf)) (toNat_sub_of_underflow _ _ h)
  · exact exec_classB_faulted rfl hs (by rw [hovf, subW_raises _ _ h])

/-- Settles O8: `mul_W` answers the product modulo `2^W`, or `Overflow`; the id check refuses a source byte above 15. -/
theorem mulMultipliesByRegister : Obligations.MulMultipliesByRegister := by
  refine ⟨fun s d r src => ⟨rfl, fun ⟨hs, h⟩ => ?_, fun ⟨hs, hovf, h⟩ => ?_, exec_classB_internalFault rfl⟩,
    classBFetchFaults 8 (by decide) (by decide)⟩
  · exact exec_classB_assigned rfl hs (mulW_value _ _ _ h) (BitVec.toNat_mul _ _)
  · exact exec_classB_faulted rfl hs (by rw [hovf, mulW_raises _ _ h])

/-- Settles O9: `div_W` answers the quotient rounded down, or `DivideByZero`; the id check refuses a source byte above 15. -/
theorem divDividesByRegister : Obligations.DivDividesByRegister := by
  refine ⟨fun s d r src => ⟨rfl, fun ⟨hs, h⟩ => ?_, fun ⟨hs, h⟩ => ?_, exec_classB_internalFault rfl⟩,
    classBFetchFaults 9 (by decide) (by decide)⟩
  · exact exec_classB_assigned rfl hs (divW_value _ _ h) BitVec.toNat_udiv
  · exact exec_classB_faulted rfl hs (by rw [h, divW_zero])

/-- Settles O10: the source's value is the value assigned; the id check refuses a source byte above 15. -/
theorem movCopiesRegister : Obligations.MovCopiesRegister :=
  ⟨fun _ _ _ _ => ⟨rfl, fun hs => exec_classB_assigned rfl hs rfl rfl, exec_classB_internalFault rfl⟩,
    classBFetchFaults 10 (by decide) (by decide)⟩

end Sys2Proof.Machine

/-! ## Class C: the reserved bytes (R92) -/

namespace Sys2Proof.Machine

/-- An Operation whose opcode is of Class C encodes to that opcode alone, whatever its operands are (R55). -/
theorem encode_of_classC_opcode (op : Operation) (h : 0xF0 ≤ op.opcode.toNat) : op.encode = some [op.opcode] := by
  have hA : op.isClassA = false := by simp [Operation.isClassA]; omega
  have hB : op.isClassB = false := by simp [Operation.isClassB]; omega
  have hC : op.isClassC = true := by simpa [Operation.isClassC] using h
  simp [Operation.encode, Operation.inDomain, hA, hB, hC]

/-- An instruction that is the report of `b` appends it with the address `IP`, moves `IP` by 1, and changes nothing else (R97). -/
theorem exec_reports_and_advances {i : Instr} {s : State} {b : Byte} (he : exec i s = .next (reportUnknown b s)) :
    ∃ t, exec i s = .next t ∧ t.reports = s.reports ++ [{ addr := s.ip, byte := b }] ∧ t.ip = s.ip + 1 ∧
      t.status = s.status ∧ s.SameRegs t ∧ s.KeepsFixed t ∧ t.snapshots = s.snapshots ∧ t.phase = .boundary :=
  ⟨_, he, reportUnknown_reports b s, reportUnknown_ip b s, reportUnknown_status b s, reg_reportUnknown b s,
    keepsFixed_of_eq _ _ rfl rfl rfl, reportUnknown_snapshots b s, reportUnknown_phase b s⟩

/-- Settles O13: `0xF0 + c` is the opcode byte of top nibble `0xF`, which the encoder copies from the Operation's opcode and the
instruction reports. -/
theorem reservedByteReportsAndAdvances : Obligations.ReservedByteReportsAndAdvances := by
  intro s c _
  have hb : BitVec.ofNat 8 (0xF0 + c.toNat) = opcodeByte 0xF c := ofNat_eq_opcodeByte 15 c
  refine ⟨by rw [hb]; rfl, fun op hop => ?_, by rw [hb]; exact exec_reports_and_advances rfl⟩
  have hclass : 0xF0 ≤ op.opcode.toNat := by
    rw [hop, BitVec.toNat_ofNat]
    have := c.isLt
    omega
  rw [encode_of_classC_opcode op hclass, hop, hb]
  rfl

end Sys2Proof.Machine

/-! ## The round trip of decoder and encoder (R43 to R54) -/

namespace Sys2Proof.Machine

/-! ### Canonical bytes -/

theorem encode_of_classA {i : Instr} (h : i.opClass = .classA) : encode i = markerByte :: encodeBody i := by
  simp [encode, h]

theorem encode_of_not_classA {i : Instr} (h : i.opClass ≠ .classA) : encode i = encodeBody i := by
  unfold encode
  split
  · contradiction
  all_goals rfl

/-- The marker is the byte of PREFIX and the opcode byte of SUBI R2, and of no other instruction (R51). -/
theorem firstByte_eq_markerByte (i : Instr) :
    i.firstByte = markerByte ↔ i = .prefixByte ∨ ∃ imm, i = .subi 2 imm := by
  have hreg (d : RegId) : nibbleOfReg d = 2#4 ↔ d = 2 := by revert d; decide
  cases i <;> simp [Instr.firstByte, opcodeByte_eq_markerByte, hreg]

/-- No opcode byte outside Class A is the marker. -/
theorem firstByte_ne_markerByte {i : Instr} (hi : i ≠ .prefixByte) (h : i.opClass ≠ .classA) : i.firstByte ≠ markerByte := by
  rw [Ne, firstByte_eq_markerByte]
  rintro (rfl | ⟨imm, rfl⟩)
  · exact hi rfl
  · exact h rfl

/-! ### Decoding a body (R65 to R70) -/

/-- The body of a well-formed instruction decodes to it and leaves what follows. -/
theorem decodeOpcode_encodeBody {i : Instr} (hwf : i.wellFormed = true) (hi : i ≠ .prefixByte) (rest : List Byte) :
    decodeOpcode i.firstByte (i.operandBytes ++ rest) = .ok i rest := by
  cases i with
  | prefixByte => contradiction
  | movi d imm | addi d imm | subi d imm | muli d imm | divi d imm =>
    simp [decodeOpcode, Instr.firstByte, Instr.operandBytes]
  | add d src | sub d src | mul d src | div d src | mov d src =>
    simp [decodeOpcode, decodeClassB, Instr.firstByte, Instr.operandBytes]
  | halt => simp [decodeOpcode, decodeClassC, Instr.firstByte, Instr.operandBytes]
  | reservedC c =>
    have hc : c ≠ 0#4 := by simpa [Instr.wellFormed] using hwf
    simp [decodeOpcode, decodeClassC, Instr.firstByte, Instr.operandBytes, hc]
  | unknown0 x | unknownB x | unknownC x | unknownD x | unknownE x =>
    simp [decodeOpcode, Instr.firstByte, Instr.operandBytes]

/-- What a decoder of `decodeOpcode` answers on `b :: bs`: a well-formed instruction whose body the bytes begin with, or a missing
operand byte where the bytes are fewer than the body (R54, R82, R83). -/
def DecodesBody (b : Byte) (bs : List Byte) (r : DecodeResult) : Prop :=
  (∃ i rest, r = .ok i rest ∧ i.wellFormed = true ∧ i ≠ .prefixByte ∧ b = i.firstByte ∧ bs = i.operandBytes ++ rest) ∨
  (∃ k, r = .missing k ∧ bs.length + 1 < bodyLength b)

/-- An opcode byte is its top nibble and its low nibble. -/
theorem eq_opcodeByte_of_hi {b : Byte} {n : Nat} (h : (hi b).toNat = n) : b = opcodeByte (BitVec.ofNat 4 n) (lo b) := by
  rw [← h, BitVec.ofNat_toNat, BitVec.setWidth_eq, opcodeByte_hi_lo]

theorem decodesBody_classA {op : Nat} {mk : RegId → Word → Instr} (h : IsClassAOp op mk) (b : Byte) (bs : List Byte)
    (hb : (hi b).toNat = op) : DecodesBody b bs (decodeClassA mk b bs) := by
  have hbyte := eq_opcodeByte_of_hi hb
  rcases decodeClassA_cases mk b bs with ⟨i0, i1, i2, i3, rest, rfl, hd⟩ | ⟨hl, hd⟩
  · refine .inl ⟨_, rest, hd, ?_⟩
    rcases h with ⟨rfl, rfl⟩ | ⟨rfl, rfl⟩ | ⟨rfl, rfl⟩ | ⟨rfl, rfl⟩ | ⟨rfl, rfl⟩ <;>
      simpa [Instr.wellFormed, Instr.firstByte, Instr.operandBytes, bytesLE_le32] using hbyte
  · have hop : 1 ≤ op ∧ op ≤ 5 := by
      rcases h with ⟨rfl, -⟩ | ⟨rfl, -⟩ | ⟨rfl, -⟩ | ⟨rfl, -⟩ | ⟨rfl, -⟩ <;> omega
    exact .inr ⟨_, hd, by rw [bodyLength, hb, if_pos hop]; omega⟩

theorem decodesBody_classB {op : Nat} {mk : RegId → Byte → Instr} (h : IsClassBOp op mk) (b : Byte) (bs : List Byte)
    (hb : (hi b).toNat = op) : DecodesBody b bs (decodeClassB mk b bs) := by
  have hbyte := eq_opcodeByte_of_hi hb
  rcases decodeClassB_cases mk b bs with ⟨src, rest, rfl, hd⟩ | ⟨rfl, hd⟩
  · refine .inl ⟨_, rest, hd, ?_⟩
    rcases h with ⟨rfl, rfl⟩ | ⟨rfl, rfl⟩ | ⟨rfl, rfl⟩ | ⟨rfl, rfl⟩ | ⟨rfl, rfl⟩ <;>
      simpa [Instr.wellFormed, Instr.firstByte, Instr.operandBytes] using hbyte
  · have hop : ¬ (1 ≤ op ∧ op ≤ 5) ∧ (6 ≤ op ∧ op ≤ 10) := by
      rcases h with ⟨rfl, -⟩ | ⟨rfl, -⟩ | ⟨rfl, -⟩ | ⟨rfl, -⟩ | ⟨rfl, -⟩ <;> omega
    exact .inr ⟨_, hd, by rw [bodyLength, hb, if_neg hop.1, if_pos hop.2]; decide⟩

/-- Decoding is the inverse of encoding: everything that `decodeOpcode` can answer. -/
theorem decodesBody_decodeOpcode (b : Byte) (bs : List Byte) : DecodesBody b bs (decodeOpcode b bs) := by
  have hone {i : Instr} (hwf : i.wellFormed = true) (hi : i ≠ .prefixByte) (hb : b = i.firstByte) (ho : i.operandBytes = []) :
      DecodesBody b bs (.ok i bs) := .inl ⟨i, bs, rfl, hwf, hi, hb, by rw [ho, List.nil_append]⟩
  unfold decodeOpcode
  split
  case h_1 h | h_12 h | h_13 h | h_14 h | h_15 h =>
    exact hone rfl (by simp) (eq_opcodeByte_of_hi h) rfl
  case h_2 h | h_3 h | h_4 h | h_5 h | h_6 h => exact decodesBody_classA (by simp [IsClassAOp]) b bs h
  case h_7 h | h_8 h | h_9 h | h_10 h | h_11 h => exact decodesBody_classB (by simp [IsClassBOp]) b bs h
  case h_16 =>
    have h : (hi b).toNat = 15 := by
      have := (hi b).isLt
      simp only [imp_false] at *
      omega
    have hb := eq_opcodeByte_of_hi h
    unfold decodeClassC
    split
    next h0 => exact hone rfl (by simp) (by rw [hb, h0]; rfl) rfl
    next h0 => exact hone (by simpa [Instr.wellFormed] using h0) (by simp) hb rfl

/-- What decoding an opcode byte reads. -/
theorem decodeOpcode_eq_ok {b : Byte} {bs rest : List Byte} {i : Instr} (h : decodeOpcode b bs = .ok i rest) :
    i.wellFormed = true ∧ i ≠ .prefixByte ∧ b = i.firstByte ∧ bs = i.operandBytes ++ rest := by
  rcases decodesBody_decodeOpcode b bs with ⟨i', rest', hd, hi⟩ | ⟨k, hd, -⟩
  · rw [h] at hd
    cases hd
    exact hi
  · rw [h] at hd
    cases hd

/-- Settles O19: the body is read by `decodeOpcode`, in phase `Boundary` too unless its first byte is taken for the prefix. -/
theorem bodyDecodesInBothPhases : Obligations.BodyDecodesInBothPhases := by
  intro i rest hwf hi
  have hd := decodeOpcode_encodeBody hwf hi rest
  refine ⟨?_, fun hne => ?_, ?_⟩
  · exact (decode_afterPrefix _ _).trans hd
  · exact (decode_boundary_of_ne _ _ hne).trans hd
  · simp [firstByte_eq_markerByte, hi]

/-- Settles O20: Class A is read behind its marker; the first byte of every other class is no marker, so its body is read at
once. -/
theorem decodeOfEncodeIsInstruction : Obligations.DecodeOfEncodeIsInstruction := by
  intro i rest hwf
  refine ⟨fun hi => ?_, ?_⟩
  · have hd := decodeOpcode_encodeBody hwf hi rest
    by_cases hA : i.opClass = .classA
    · rw [encode_of_classA hA]
      exact (decodeInstr_marker _ _).trans hd
    · rw [encode_of_not_classA hA]
      exact (decodeInstr_of_ne _ _ (firstByte_ne_markerByte hi hA)).trans hd
  · rintro rfl
    exact decode_marker rest

/-- Settles O21: the prefix is read from the marker in phase `Boundary`, every other instruction from its body. -/
theorem encodeOfDecodeIsBytes : Obligations.EncodeOfDecodeIsBytes := by
  intro ph bs rest i h
  by_cases hi : i = .prefixByte
  · subst hi
    obtain ⟨rfl, rfl⟩ := (decode_eq_prefixByte ph bs rest).mp h
    exact ⟨rfl, rfl, fun _ => rfl⟩
  · cases bs with
    | nil => simp [decode] at h
    | cons b bs =>
      have hb : ¬ (ph = .boundary ∧ b = markerByte) := by
        rintro ⟨rfl, rfl⟩
        rw [decode_marker] at h
        cases h
        exact hi rfl
      rw [decode, if_neg hb] at h
      obtain ⟨hwf, -, rfl, rfl⟩ := decodeOpcode_eq_ok h
      exact ⟨hwf, rfl, fun h => absurd h hi⟩

/-- The length of a body is the one that its opcode byte gives (R54). -/
theorem bodyLength_firstByte {i : Instr} (hi : i ≠ .prefixByte) : bodyLength i.firstByte = (encodeBody i).length := by
  cases i with
  | prefixByte => contradiction
  | _ => simp [bodyLength, Instr.firstByte, encodeBody, Instr.operandBytes]

/-- Four bytes behind an opcode byte are enough for every body (R53). -/
theorem decodeOpcode_of_four_le (b : Byte) (bs : List Byte) (h : 4 ≤ bs.length) :
    ∃ i, decodeOpcode b bs = .ok i ((b :: bs).drop (bodyLength b)) := by
  rcases decodesBody_decodeOpcode b bs with ⟨i, rest, hd, -, hi, rfl, rfl⟩ | ⟨k, -, hl⟩
  · refine ⟨i, ?_⟩
    rw [hd, bodyLength_firstByte hi, ← List.cons_append, ← encodeBody, List.drop_left]
  · have : bodyLength b ≤ 5 := by
      unfold bodyLength
      split_ifs <;> decide
    omega

/-- Settles O22: no body is longer than five bytes, and the marker alone is read by phase. -/
theorem everyOpcodeByteDecodes : Obligations.EveryOpcodeByteDecodes := by
  intro b bs hl
  obtain ⟨i, hd⟩ := decodeOpcode_of_four_le b bs hl
  exact ⟨⟨i, by rw [decode_afterPrefix, hd]⟩, fun hb => ⟨i, by rw [decode_boundary_of_ne b bs hb, hd]⟩⟩

/-! ### The marker as an opcode byte (R51, R125) -/

/-- The marker as an opcode byte is that of SUBI R2 (R51). -/
theorem decodeOpcode_markerByte (i0 i1 i2 i3 : Byte) (rest : List Byte) :
    decodeOpcode markerByte (i0 :: i1 :: i2 :: i3 :: rest) = .ok (.subi 2 (le32 i0 i1 i2 i3)) rest := rfl

/-- Settles O23: the first marker is read by phase, the second one as the opcode byte. -/
theorem markerCollidesWithSubiR2 : Obligations.MarkerCollidesWithSubiR2 := fun imm rest =>
  ⟨rfl, decode_marker _, (decode_afterPrefix _ _).trans (decodeOpcode_encodeBody (i := .subi 2 imm) rfl (by simp) rest)⟩

/-- The operand bytes of Class A are the four bytes of its immediate (R44). -/
theorem operandBytes_of_classA {i : Instr} (h : i.opClass = .classA) : ∃ imm, i.operandBytes = bytesLE imm := by
  cases i with
  | movi d imm | addi d imm | subi d imm | muli d imm | divi d imm => exact ⟨imm, rfl⟩
  | _ => simp [Instr.opClass] at h

/-- Settles O24: behind the stray marker the instruction's own marker is an opcode byte, and takes the four bytes after it. -/
theorem strayMarkerMisaligns : Obligations.StrayMarkerMisaligns := by
  intro i rest h
  obtain ⟨imm, himm⟩ := operandBytes_of_classA h
  refine ⟨_, _, _, _, _, himm, ?_, toNat_le32 i.firstByte _ _ _⟩
  rw [encode_of_classA h, encodeBody, himm]
  exact (decodeInstr_marker _ _).trans (decodeOpcode_markerByte _ _ _ _ _)

/-- Settles O25: each word is the canonical bytes of its instruction, run through the decoder. -/
theorem exampleWordsDecode : Obligations.ExampleWordsDecode := by
  unfold Obligations.ExampleWordsDecode
  decide

end Sys2Proof.Machine

/-! ## The assembler's Operations (R55 to R57) -/

namespace Sys2Proof.Machine

/-- An opcode byte as a number (R12). -/
theorem toNat_opcodeByte (h l : Nibble) : (opcodeByte h l).toNat = 16 * h.toNat + l.toNat := by
  rw [opcodeByte, BitVec.toNat_append, ← Nat.shiftLeft_add_eq_or_of_lt l.isLt, Nat.shiftLeft_eq]
  omega

/-! ### The encoder by the ranges of the opcode (R55) -/

section
variable {op : Operation}

theorem isClassA_iff : op.isClassA = true ↔ 1 ≤ op.opcode.toNat ∧ op.opcode.toNat ≤ 5 := by
  simp [Operation.isClassA]

theorem isClassB_iff : op.isClassB = true ↔ 6 ≤ op.opcode.toNat ∧ op.opcode.toNat ≤ 10 := by
  simp [Operation.isClassB]

theorem isClassC_iff : op.isClassC = true ↔ 0xF0 ≤ op.opcode.toNat := by
  simp [Operation.isClassC]

/-- The `require` lines of R55. -/
theorem inDomain_iff : op.inDomain = true ↔
    (1 ≤ op.opcode.toNat ∧ op.opcode.toNat ≤ 10 → 0 ≤ op.operand1.toInt ∧ op.operand1.toInt ≤ 15) ∧
    (6 ≤ op.opcode.toNat ∧ op.opcode.toNat ≤ 10 → 0 ≤ op.operand2.toInt ∧ op.operand2.toInt ≤ 255) := by
  unfold Operation.inDomain
  simp only [isClassA_iff, isClassB_iff]
  split_ifs with hA hB
  · simp only [Bool.and_eq_true, decide_eq_true_eq]
    omega
  · simp only [Bool.and_eq_true, decide_eq_true_eq]
    omega
  · simp only [true_iff]
    omega

theorem encode_eq_none_iff : op.encode = none ↔ op.inDomain = false := by
  unfold Operation.encode
  split_ifs with hdom <;> simp [hdom]

theorem encode_of_classA_opcode (hdom : op.inDomain = true) (h : 1 ≤ op.opcode.toNat ∧ op.opcode.toNat ≤ 5) :
    op.encode = some (markerByte :: opcodeByte (lo op.opcode) (op.operand1.extractLsb' 0 4) :: bytesLE op.operand2) := by
  rw [Operation.encode, if_pos hdom, if_pos (isClassA_iff.mpr h)]

theorem encode_of_classB_opcode (hdom : op.inDomain = true) (h : 6 ≤ op.opcode.toNat ∧ op.opcode.toNat ≤ 10) :
    op.encode = some [opcodeByte (lo op.opcode) (op.operand1.extractLsb' 0 4), op.operand2.extractLsb' 0 8] := by
  rw [Operation.encode, if_pos hdom, if_neg (by rw [isClassA_iff]; omega), if_pos (isClassB_iff.mpr h)]

/-- An opcode of no class encodes to no byte (R56). -/
theorem encode_of_other_opcode (h : op.opcode.toNat = 0 ∨ (11 ≤ op.opcode.toNat ∧ op.opcode.toNat ≤ 0xEF)) :
    op.encode = some [] := by
  rw [Operation.encode, if_pos (by rw [inDomain_iff]; omega), if_neg (by rw [isClassA_iff]; omega),
    if_neg (by rw [isClassB_iff]; omega), if_neg (by rw [isClassC_iff]; omega)]

/-- Settles O28: the domain fails exactly where one of the `require` lines does. -/
theorem encoderDomain : Obligations.EncoderDomain := by
  intro op
  rw [encode_eq_none_iff, ← Bool.not_eq_true, inDomain_iff]
  omega

/-! ### The instruction that an Operation stands for (R47, R56) -/

/-- An opcode above `0xF0` stands for its reserved byte. -/
theorem instr_of_reserved_opcode (h : 0xF0 < op.opcode.toNat) : op.instr = some (.reservedC (lo op.opcode)) := by
  have hdom : op.inDomain = true := by rw [inDomain_iff]; omega
  simp only [Operation.instr, hdom, if_true]
  split
  case h_12 => exact if_pos h
  all_goals omega

/-- Outside the domain an Operation stands for nothing. -/
theorem instr_of_not_inDomain (h : op.inDomain = false) : op.instr = none := by
  simp [Operation.instr, h]

/-- In the domain only the opcodes of no class stand for nothing. -/
theorem instr_eq_none_iff (hdom : op.inDomain = true) :
    op.instr = none ↔ op.opcode.toNat = 0 ∨ (11 ≤ op.opcode.toNat ∧ op.opcode.toNat ≤ 0xEF) := by
  simp only [Operation.instr, hdom, if_true]
  split
  case h_12 =>
    simp only [imp_false] at *
    split_ifs
    · simp only [false_iff]
      omega
    · simp only [true_iff]
      omega
  all_goals
    simp only [reduceCtorEq, false_iff]
    omega

/-- Settles O27: such an opcode is in no range of the encoder and in no row of `Operation.instr`. -/
theorem otherOpcodesEncodeToNothing : Obligations.OtherOpcodesEncodeToNothing := fun _ h =>
  ⟨encode_of_other_opcode h, (instr_eq_none_iff (inDomain_iff.mpr (by omega))).mpr h⟩

/-- The bytes of an Operation that stands for an instruction are that instruction's canonical bytes. -/
theorem encode_of_instr {i : Instr} (h : op.instr = some i) :
    op.encode = some (encode i) ∧ i.wellFormed = true ∧ i ≠ .prefixByte := by
  have hopcode {n : Nat} (hn : op.opcode.toNat = n) : op.opcode = BitVec.ofNat 8 n := by
    rw [← hn, BitVec.ofNat_toNat, BitVec.setWidth_eq]
  have hdom : op.inDomain = true := by
    by_contra hdom
    rw [instr_of_not_inDomain (by simpa using hdom)] at h
    cases h
  simp only [Operation.instr, hdom, if_true] at h
  split at h
  case h_1 hn | h_2 hn | h_3 hn | h_4 hn | h_5 hn =>
    cases h
    refine ⟨?_, rfl, by simp⟩
    rw [encode_of_classA_opcode hdom (by omega), hopcode hn]
    simp [encode, encodeBody, Instr.opClass, Instr.firstByte, Instr.operandBytes, lo]
  case h_6 hn | h_7 hn | h_8 hn | h_9 hn | h_10 hn =>
    cases h
    refine ⟨?_, rfl, by simp⟩
    rw [encode_of_classB_opcode hdom (by omega), hopcode hn]
    simp [encode, encodeBody, Instr.opClass, Instr.firstByte, Instr.operandBytes, lo]
  case h_11 hn =>
    cases h
    refine ⟨?_, rfl, by simp⟩
    rw [encode_of_classC_opcode op (by omega), hopcode hn]
    rfl
  case h_12 =>
    split at h
    next hgt =>
      cases h
      have hnibbles := toNat_opcodeByte (hi op.opcode) (lo op.opcode)
      have hhi := (hi op.opcode).isLt
      have hlo := (lo op.opcode).isLt
      rw [opcodeByte_hi_lo] at hnibbles
      refine ⟨?_, ?_, by simp⟩
      · rw [encode_of_classC_opcode op (by omega)]
        exact congrArg (fun b => some [b]) (eq_opcodeByte_of_hi (n := 15) (by omega))
      · have hne : lo op.opcode ≠ 0#4 := by
          intro h0
          rw [h0] at hnibbles
          have : (0#4).toNat = 0 := rfl
          omega
        simpa [Instr.wellFormed] using hne
    next => cases h

/-- Settles O26: the bytes are the canonical bytes of the instruction that the Operation stands for, which decode back to it. -/
theorem operationBytesDecodeBack : Obligations.OperationBytesDecodeBack := by
  intro op bs rest henc hbs
  have hdom : op.inDomain = true := by
    rw [← Bool.not_eq_false, ← encode_eq_none_iff, henc]
    simp
  have hsome : op.instr ≠ none := by
    rw [Ne, instr_eq_none_iff hdom]
    intro h
    rw [encode_of_other_opcode h] at henc
    cases henc
    exact hbs rfl
  obtain ⟨i, hi⟩ := Option.ne_none_iff_exists'.mp hsome
  obtain ⟨henc', hwf, hne⟩ := encode_of_instr hi
  obtain rfl : encode i = bs := by simpa [henc] using henc'.symm
  exact ⟨i, hi, (decodeOfEncodeIsInstruction i rest hwf).1 hne, rfl⟩

/-! ### The Operation that an instruction is written as (R57) -/

/-- A register id as a signed operand: in `0..15`, with its nibble as the low bits. -/
theorem operand_of_reg (d : RegId) :
    (0 ≤ (BitVec.ofNat 32 d.val).toInt ∧ (BitVec.ofNat 32 d.val).toInt ≤ 15) ∧
      regOfNibble ((BitVec.ofNat 32 d.val).extractLsb' 0 4) = d := by
  revert d; decide

/-- A source byte as a signed operand: in `0..255`, with the byte as the low bits. -/
theorem operand_of_byte (src : Byte) :
    (0 ≤ (src.setWidth 32).toInt ∧ (src.setWidth 32).toInt ≤ 255) ∧ (src.setWidth 32).extractLsb' 0 8 = src := by
  revert src; decide

/-- The Operation that a well-formed instruction is written as stands for it. -/
theorem instr_of_ofInstr {i : Instr} (hwf : i.wellFormed = true) (h : Operation.ofInstr i = some op) : op.instr = some i := by
  cases i with
  | prefixByte | unknown0 x | unknownB x | unknownC x | unknownD x | unknownE x => cases h
  | movi d imm | addi d imm | subi d imm | muli d imm | divi d imm =>
    cases h
    obtain ⟨hd, hreg⟩ := operand_of_reg d
    simp [Operation.instr, inDomain_iff, hd, hreg]
  | add d src | sub d src | mul d src | div d src | mov d src =>
    cases h
    obtain ⟨hd, hreg⟩ := operand_of_reg d
    obtain ⟨hs, hsrc⟩ := operand_of_byte src
    have hdom (b : Byte) :
        ({ opcode := b, operand1 := BitVec.ofNat 32 d.val, operand2 := src.setWidth 32 } : Operation).inDomain = true :=
      inDomain_iff.mpr ⟨fun _ => hd, fun _ => hs⟩
    simp [Operation.instr, hdom, hreg, hsrc]
  | halt =>
    cases h
    simp [Operation.instr, inDomain_iff]
  | reservedC c =>
    cases h
    have hc : c ≠ 0#4 := by simpa [Instr.wellFormed] using hwf
    have hpos : c.toNat ≠ 0 := fun h0 => hc (BitVec.eq_of_toNat_eq h0)
    have hhigh : (0xF : Nibble).toNat = 15 := rfl
    refine (instr_of_reserved_opcode ?_).trans (by rw [lo_opcodeByte])
    rw [toNat_opcodeByte]
    omega

/-- Settles O29: the Operation stands for the instruction, so its bytes are the canonical ones. -/
theorem notationEncodesToCanonicalBytes : Obligations.NotationEncodesToCanonicalBytes := by
  refine fun i hwf => ⟨fun op hop => ?_, ?_⟩
  · have hi := instr_of_ofInstr hwf hop
    exact ⟨(encode_of_instr hi).1, hi⟩
  · cases i <;> simp [Operation.ofInstr, Instr.opClass]

end

end Sys2Proof.Machine

/-! ## The container file: the checks of the parse, and the round trip (R112 to R120) -/

namespace Sys2Proof.Machine

/-! ### Files that start no run (R118) -/

theorem boot_of_parse_error (cfg : Config) (file : List Byte) (e : FormatError) (h : parseContainer file = .error e) :
    State.boot cfg file = .error e := by
  simp [State.boot, h]

/-- Settles O59: the three checks come in this order, each after those before it passed. -/
theorem badContainersStartNoRun : Obligations.BadContainersStartNoRun := by
  intro cfg file
  refine ⟨fun h => ?_, fun h hm => ?_, fun h hm hv => ?_⟩ <;> apply boot_of_parse_error <;> unfold parseContainer
  · rw [if_pos h]
  · rw [if_neg (by omega), if_pos (by simpa [slice, containerMagic] using hm)]
  · rw [if_neg (by omega), if_neg (by simpa [slice, containerMagic] using hm),
      if_pos (by simpa [slice, containerVersion] using hv)]

/-! ### Reading a file at an offset -/

section
variable {f : List Byte}

theorem fileByte_append (pre rest : List Byte) (a : Nat) : fileByte (pre ++ rest) (pre.length + a) = fileByte rest a := by
  simp [fileByte, List.getElem?_append_right]

/-- A number below `2^32` is read back from its four little-endian bytes (R33, R119). -/
theorem fileWord_of_eq_append {pre post : List Byte} {n a : Nat} (hf : f = pre ++ (bytesLE (BitVec.ofNat 32 n) ++ post))
    (ha : a = pre.length) (hn : n < 2 ^ 32) : fileWord f a = n := by
  rw [hf, ha, ← Nat.add_zero pre.length]
  simp only [fileWord, Nat.add_assoc, fileByte_append]
  simpa [fileByte, bytesLE] using hn

/-- The part of a file that stands between two others. -/
theorem slice_of_eq_append {pre part post : List Byte} {a n : Nat} (hf : f = pre ++ (part ++ post)) (ha : a = pre.length)
    (hn : n = part.length) : slice f a n = part := by
  simp [slice, hf, ha, hn]

/-! ### One entry (R116, R119) -/

@[simp] theorem serializeEntry_length (executable : Byte) (name : List Byte) (off len : Nat) :
    (serializeEntry executable name off len).length = 10 + name.length := by
  simp [serializeEntry]
  omega

/-- What an entry adds to the segments (R117). -/
def Segments.addEntry (acc : Segments) (executable : Byte) (bytes : List Byte) : Segments :=
  if executable ≠ 0 then { acc with code := acc.code ++ bytes } else { acc with data := acc.data ++ bytes }

/-- An entry that the serializer wrote at `k` is parsed to its slice of the file, and the next entry is looked for right after
it. -/
theorem parseEntries_serializeEntry {pre post name : List Byte} {executable : Byte} {off len k : Nat} (n : Nat) (acc : Segments)
    (hf : f = pre ++ (serializeEntry executable name off len ++ post)) (hk : k = pre.length) (hname : name.length < 256)
    (hoff : off < 2 ^ 32) (hlen : len < 2 ^ 32) (hfile : off + len ≤ f.length) :
    parseEntries f (n + 1) k acc =
      parseEntries f n (k + 10 + name.length) (acc.addEntry executable (slice f off len)) := by
  have hlength : f.length = k + (10 + name.length + post.length) := by
    rw [hf, hk]
    simp
  have hexec : fileByte f k = executable := by
    rw [hf, hk]
    exact fileByte_append pre _ 0
  have hln : (fileByte f (k + 1)).toNat = name.length := by
    rw [hf, hk, fileByte_append]
    exact Nat.mod_eq_of_lt hname
  have hoffset : fileWord f (k + 2 + name.length) = off :=
    fileWord_of_eq_append (pre := pre ++ executable :: BitVec.ofNat 8 name.length :: name)
      (by rw [hf]; simp [serializeEntry]; rfl) (by simp; omega) hoff
  have hlen' : fileWord f (k + 6 + name.length) = len :=
    fileWord_of_eq_append (pre := pre ++ executable :: BitVec.ofNat 8 name.length :: name ++ bytesLE (BitVec.ofNat 32 off))
      (by rw [hf]; simp [serializeEntry]; rfl) (by simp; omega) hlen
  rw [parseEntries, if_neg (by omega)]
  simp only [hln, hoffset, hlen', hexec]
  rw [if_neg (by omega), if_neg (by omega)]
  unfold Segments.addEntry
  split <;> simp only [Nat.add_right_comm]

end

/-! ### The whole file (R119, R120) -/

/-- The bytes before the entries: magic, version, the two ignored bytes, and the number of entries. -/
def containerStart : List Byte := containerMagic ++ containerVersion ++ [0x00#8, 0x00#8] ++ [0x02#8]

/-- The entry of the code segment. -/
def Segments.codeEntry (c : Segments) : List Byte := serializeEntry 0x01#8 codeName 39 c.code.length

/-- The entry of the data segment. -/
def Segments.dataEntry (c : Segments) : List Byte := serializeEntry 0x00#8 dataName (39 + c.code.length) c.data.length

theorem serializeContainer_eq (c : Segments) :
    serializeContainer c = containerStart ++ (c.codeEntry ++ (c.dataEntry ++ (c.code ++ c.data))) := by
  simp only [serializeContainer, containerStart, Segments.codeEntry, Segments.dataEntry, List.append_assoc]

@[simp] theorem containerStart_length : containerStart.length = 9 := rfl
@[simp] theorem codeEntry_length (c : Segments) : c.codeEntry.length = 15 := serializeEntry_length _ codeName _ _
@[simp] theorem dataEntry_length (c : Segments) : c.dataEntry.length = 15 := serializeEntry_length _ dataName _ _

theorem serializeContainer_length (c : Segments) :
    (serializeContainer c).length = 39 + c.code.length + c.data.length := by
  simp [serializeContainer_eq]
  omega

/-- A serialized file passes the checks of its start, and has two entries (R112 to R115). -/
theorem parseContainer_serializeContainer (c : Segments) :
    parseContainer (serializeContainer c) = parseEntries (serializeContainer c) 2 9 { code := [], data := [] } := by
  have hlength := serializeContainer_length c
  have hmagic : slice (serializeContainer c) 0 4 = containerMagic := rfl
  have hversion : slice (serializeContainer c) 4 2 = containerVersion := rfl
  have hcount : (fileByte (serializeContainer c) 8).toNat = 2 := rfl
  rw [parseContainer, if_neg (by omega), if_neg (not_not.mpr hmagic), if_neg (not_not.mpr hversion), hcount]

/-- Settles O60: the entries at 9 and at 24 are parsed to the two slices that stand behind the 39 bytes of the header. -/
theorem containerRoundTrip : Obligations.ContainerRoundTrip := by
  intro c hc
  have hfile := serializeContainer_eq c
  have hfile' : serializeContainer c = containerStart ++ c.codeEntry ++ (c.dataEntry ++ (c.code ++ c.data)) := by simp [hfile]
  have hlength := serializeContainer_length c
  have hcode : slice (serializeContainer c) 39 c.code.length = c.code :=
    slice_of_eq_append (pre := containerStart ++ (c.codeEntry ++ c.dataEntry)) (post := c.data)
      (by simp [hfile]) (by simp) rfl
  have hdata : slice (serializeContainer c) (39 + c.code.length) c.data.length = c.data :=
    slice_of_eq_append (pre := containerStart ++ (c.codeEntry ++ (c.dataEntry ++ c.code))) (post := [])
      (by simp [hfile]) (by simp; omega) rfl
  calc parseContainer (serializeContainer c)
      = parseEntries (serializeContainer c) 2 9 { code := [], data := [] } := parseContainer_serializeContainer c
    _ = parseEntries (serializeContainer c) 1 24 { code := c.code, data := [] } := by
      refine (parseEntries_serializeEntry 1 _ hfile rfl (by decide) (by omega) (by omega) (by omega)).trans ?_
      rw [hcode]
      rfl
    _ = parseEntries (serializeContainer c) 0 39 { code := c.code, data := c.data } := by
      refine (parseEntries_serializeEntry 0 _ hfile' (by simp) (by decide) (by omega) (by omega) (by omega)).trans ?_
      rw [hdata]
      rfl
    _ = .ok c := rfl

end Sys2Proof.Machine

/-! ## The course of a run: where a step leaves `IP`, the invariant, and the end of every run (R73, R126) -/

namespace Sys2Proof.Machine

/-! ### Where a transition and a step leave `IP` (R73) -/

/-- A transition that ends the step leaves `IP` and ends the run, or it goes on from an `IP` of at most `M` and moves it by 1 to 5. -/
theorem transition_ip (s t : State) (h : transition s = .next t) (hp : t.phase = .boundary) :
    (t.status ≠ .running ∧ t.ip = s.ip) ∨
    (t.status = s.status ∧ s.ip.toNat ≤ s.cfg.M ∧ s.ip.toNat + 1 ≤ t.ip.toNat ∧ t.ip.toNat ≤ s.ip.toNat + 5) := by
  rcases transition_cases s with ⟨i, hf, ht⟩ | ⟨a, -, ht⟩
  · obtain ⟨hM, -⟩ := fetch_eq_instr s i hf
    have hmove (n : Word) (h1 : 1 ≤ n.toNat) (h5 : n.toNat ≤ 5) :
        s.ip.toNat + 1 ≤ (s.ip + n).toNat ∧ (s.ip + n).toNat ≤ s.ip.toNat + 5 := by
      rw [ip_add_toNat s n hM h5]
      omega
    obtain ⟨t', he, hc⟩ := exec_cases i s
    obtain rfl : t = t' := by simpa [ht, he] using h.symm
    rcases hc with ⟨-, rfl⟩ | ⟨d, v, n, hn, rfl⟩ | ⟨k, -, rfl⟩ | ⟨-, rfl⟩ | ⟨-, rfl⟩
    · cases hp
    · obtain ⟨rfl, -⟩ | ⟨rfl, -⟩ := hn
      · exact .inr ⟨rfl, hM, hmove 5 (by decide) (by decide)⟩
      · exact .inr ⟨rfl, hM, hmove 2 (by decide) (by decide)⟩
    · exact .inl ⟨by simp, rfl⟩
    · exact .inl ⟨by simp, rfl⟩
    · exact .inr ⟨rfl, hM, hmove 1 (by decide) (by decide)⟩
  · obtain rfl : t = raise (.memoryFault a) s := by simpa [h] using ht
    exact .inl ⟨by simp, rfl⟩

/-- A prefix is fetched at a boundary, from the marker at an `IP` of at most `M` (R61, R63). -/
theorem ready_of_fetch_prefixByte (s : State) (hr : s.status = .running) (hf : fetch s = .instr .prefixByte) : s.Ready := by
  obtain ⟨hM, rest, hd⟩ := fetch_eq_instr s _ hf
  exact ⟨hr, ((decode_eq_prefixByte _ _ _).mp hd).1, hM⟩

/-- The last transition of a step from `Running`: it starts in the step's own state, or behind a prefix fetched there. -/
theorem step_lastTransition_cases (s t : State) (hr : s.status = .running) (h : step s = .next t) :
    ∃ w, t = emitSnapshot w ∧ w.phase = .boundary ∧
      (transition s = .next w ∨
       (s.Ready ∧ s.mem.read s.ip.toNat = some markerByte ∧ transition (afterPrefixOf s) = .next w)) := by
  obtain ⟨w, hs, hp, hw⟩ := step_cases s hr
  obtain rfl : t = emitSnapshot w := by simpa [h] using hs
  refine ⟨w, rfl, hp, hw.imp_right fun ⟨hf, hw⟩ => ?_⟩
  exact ⟨ready_of_fetch_prefixByte s hr hf, read_of_fetch_eq_prefixByte s hf, hw⟩

/-- The prefix moves `IP` by 1 (R63). -/
theorem afterPrefixOf_ip_toNat (s : State) (h : s.ip.toNat ≤ s.cfg.M) : (afterPrefixOf s).ip.toNat = s.ip.toNat + 1 :=
  ip_add_toNat s 1 h (by decide)

/-- A step ends the run and leaves `IP`, or moves it by the 1 of a prefix; or the run goes on, and `IP` moves by 1 to 6 from an
opcode byte at `M` or below. -/
theorem step_ip (s t : State) (hr : s.status = .running) (h : step s = .next t) :
    (t.status ≠ .running ∧ (t.ip.toNat = s.ip.toNat ∨ s.ip.toNat ≤ s.cfg.M ∧ t.ip.toNat = s.ip.toNat + 1)) ∨
    (t.status = .running ∧ s.ip.toNat ≤ s.cfg.M ∧ s.ip.toNat + 1 ≤ t.ip.toNat ∧ t.ip.toNat ≤ s.ip.toNat + 6 ∧
      t.ip.toNat ≤ s.cfg.M + 5) := by
  obtain ⟨w, rfl, hp, hw | ⟨hs, -, hw⟩⟩ := step_lastTransition_cases s t hr h <;>
    simp only [emitSnapshot_status, emitSnapshot_ip]
  · rcases transition_ip s w hw hp with ⟨hst, hip⟩ | ⟨hst, hM, hlo, hhi⟩
    · exact .inl ⟨hst, .inl (by rw [hip])⟩
    · exact .inr ⟨hst.trans hr, hM, by omega, by omega, by omega⟩
  · have hu := afterPrefixOf_ip_toNat s hs.bound
    have hM := hs.bound
    rcases transition_ip _ w hw hp with ⟨hst, hip⟩ | ⟨hst, hMu, hlo, hhi⟩
    · exact .inl ⟨hst, .inr ⟨hM, by rw [hip, hu]⟩⟩
    · have hMu' : (afterPrefixOf s).ip.toNat ≤ s.cfg.M := hMu
      exact .inr ⟨hst.trans hr, hM, by omega, by omega, by omega⟩

/-- Settles O37, from the place where a step leaves `IP`. -/
theorem runningStepMovesForward : Obligations.RunningStepMovesForward := by
  intro s t hr h ht
  rcases step_ip s t hr h with ⟨hst, -⟩ | ⟨-, hM, hlo, hhi, -⟩
  · exact absurd ht hst
  · exact ⟨hlo, hhi, hM⟩

/-! ### The invariant of the block -/

/-- Settles O39: the step keeps the image and `SEG`, ends in phase `Boundary`, and moves `IP` by at most 5 from an opcode byte at `M`
or below. -/
theorem stepKeepsInvariant : Obligations.StepKeepsInvariant := by
  intro s t hs h
  obtain ⟨hr, -⟩ := (step_eq_next s t).mp h
  have hfix := step_keepsFixed s t h
  refine ⟨?_, hfix.mem ▸ hs.memWf, hfix.mem ▸ hs.memImage, hfix.seg.trans hs.seg, ?_⟩
  · obtain ⟨w, rfl, hp, -⟩ := step_lastTransition_cases s t hr h
    rw [emitSnapshot_phase, hp]
  · have hip := hs.ip
    rw [hfix.cfg]
    rcases step_ip s t hr h with ⟨-, hip' | ⟨hM, hip'⟩⟩ | ⟨-, -, -, -, hip'⟩ <;> omega

/-- Settles O40: an image of bytes is contiguous from address 0, and the other fields are those of reset. -/
theorem startHasInvariant : Obligations.StartHasInvariant := by
  have hstart (cfg : Config) (img : List Byte) : (State.start cfg (Memory.ofBytes img)).Inv :=
    ⟨rfl, isImage_wf _ (ofBytes_isImage img), ofBytes_isImage img, rfl, Nat.zero_le _⟩
  exact ⟨hstart, hstart resetConfig []⟩

/-! ### The end of every run (R126) -/

/-- Settles O34: no transition answers a fault or a refusal. -/
theorem runningStepAnswersNext : Obligations.RunningStepAnswersNext := by
  intro s hr
  obtain ⟨w, hs, hp, -⟩ := step_cases s hr
  exact ⟨_, hs, by rw [emitSnapshot_phase, hp]⟩

/-- A run of one more step. -/
theorem run_succ_of_step (k : Nat) (s t : State) (h : step s = .next t) :
    Sys2Proof.core.run (k + 1) s = Sys2Proof.core.run k t := by
  have hcore : Sys2Proof.core.step s = .next t := h
  simp only [Host.Core.run, hcore]

/-- A run that has at most `n` addresses up to `M` before it ends within `n + 1` steps: each step that goes on uses one up. -/
theorem run_ends_of_lt_add (n : Nat) (s : State) (hr : s.status = .running) (hn : s.cfg.M < s.ip.toNat + n) :
    ∃ (k : Nat) (t : State), 1 ≤ k ∧ k ≤ n + 1 ∧ Sys2Proof.core.run k s = .next t ∧ t.ended := by
  induction n generalizing s with
  | zero =>
    obtain ⟨t, h, -⟩ := runningStepAnswersNext s hr
    refine ⟨1, t, le_rfl, le_rfl, run_succ_of_step 0 s t h, fun ht => ?_⟩
    have := (runningStepMovesForward s t hr h ht).2.2
    omega
  | succ n ih =>
    obtain ⟨t, h, -⟩ := runningStepAnswersNext s hr
    by_cases ht : t.status = .running
    · have hmove := (runningStepMovesForward s t hr h ht).1
      obtain ⟨k, u, -, hkn, hrun, hu⟩ := ih t ht (by rw [(step_keepsFixed s t h).cfg]; omega)
      exact ⟨k + 1, u, by omega, by omega, (run_succ_of_step k s t h).trans hrun, hu⟩
    · exact ⟨1, t, le_rfl, by omega, run_succ_of_step 0 s t h, ht⟩

/-- Settles O38: the addresses `IP..M` are at most `M + 1`, and each step that goes on uses one up. -/
theorem everyRunEnds : Obligations.EveryRunEnds := fun s hr =>
  run_ends_of_lt_add (s.cfg.M + 1) s hr (by omega)

/-- Settles O35: the step asks for the status first. -/
theorem noStepFromTerminalStatus : Obligations.NoStepFromTerminalStatus := fun s =>
  ⟨fun h => by rw [step, runStep, h], fun k h => by rw [step, runStep, h]⟩

end Sys2Proof.Machine

/-! ## The step: what it runs, and what it shows (R59, R72, R97, R108, R110) -/

namespace Sys2Proof.Machine

/-! ### The step runs what it decodes -/

/-- Only the prefix leaves phase `Boundary` (R60). -/
theorem exec_phase {i : Instr} {s t : State} (hi : i ≠ .prefixByte) (h : exec i s = .next t) : t.phase = .boundary := by
  obtain ⟨t', he, hc⟩ := exec_cases i s
  obtain rfl : t = t' := by simpa [h] using he
  rcases hc with ⟨h, -⟩ | ⟨d, v, n, -, rfl⟩ | ⟨k, -, rfl⟩ | ⟨-, rfl⟩ | ⟨-, rfl⟩
  · exact absurd h hi
  all_goals rfl

/-- A fetched instruction other than the prefix is the whole step, before the snapshot. -/
theorem step_of_fetch_instr {i : Instr} {s t : State} (hr : s.status = .running) (hf : fetch s = .instr i)
    (hi : i ≠ .prefixByte) (he : exec i s = .next t) : step s = .next (emitSnapshot t) := by
  have ht : transition s = .next t := by rw [transition, hf]; exact he
  have hend : finishPrefixed t = .next t := by rw [finishPrefixed, exec_phase hi he]
  exact (step_eq_next _ _).mpr ⟨hr, t, ⟨t, ht, hend⟩, rfl⟩

/-- Settles O30: the decoded instruction is the one fetched, and ends the step. -/
theorem stepRunsDecodedInstruction : Obligations.StepRunsDecodedInstruction := by
  intro s i rest hs hd hi
  obtain ⟨t, he, -⟩ := exec_cases i s
  have hf : fetch s = .instr i := fetch_of_decode s i rest hs.bound (by rw [hs.phase, hd])
  exact ⟨t, he, step_of_fetch_instr hs.running hf hi he⟩

/-- Settles O31: the prefix is fetched from the marker, and the instruction behind it in the state that the prefix leaves. -/
theorem stepRunsPrefixedInstruction : Obligations.StepRunsPrefixedInstruction := by
  intro s i rest rest' hs hd hM hd'
  obtain ⟨-, hbytes⟩ := (decode_eq_prefixByte _ _ _).mp hd
  have hm : s.mem.read s.ip.toNat = some markerByte := read_of_readBytes_eq_cons _ _ _ _ _ hbytes
  have hip := afterPrefixOf_ip_toNat s hs.bound
  obtain ⟨t, he, -⟩ := exec_cases i (afterPrefixOf s)
  have hf : fetch (afterPrefixOf s) = .instr i := by
    refine fetch_of_decode _ i rest' ?_ ?_ <;> rw [hip]
    · exact hM
    · exact hd'
  have ht : transition (opcodeState s) = .next t := by
    rw [opcodeState_of_marker s hm, transition, hf]
    exact he
  exact ⟨_, t, rfl, he, step_of_transition_opcodeState s t hs ht⟩

theorem operandBytes_length_le (i : Instr) : i.operandBytes.length ≤ 4 := by
  cases i <;> simp [Instr.operandBytes]

/-- A body in memory is what is read there, up to the five bytes of a fetch. -/
theorem readBytes_of_holds_encodeBody {m : Memory} {a : Nat} {i : Instr} (h : m.holds a (encodeBody i)) :
    ∃ more, m.readBytes a 5 = encodeBody i ++ more := by
  have hlen := operandBytes_length_le i
  exact readBytes_of_reads m a _ 5 (by simp only [encodeBody, List.length_cons]; omega) h

/-- Bytes in memory, apart from the first. -/
theorem holds_cons (m : Memory) (a : Nat) (b : Byte) (bs : List Byte) :
    m.holds a (b :: bs) ↔ m.read a = some b ∧ m.holds (a + 1) bs := by
  constructor
  · refine fun h => ⟨by simpa using h 0 (by simp), fun k hk => ?_⟩
    rw [Nat.add_assoc, Nat.add_comm 1]
    exact h (k + 1) (by simpa using hk)
  · rintro ⟨h0, h⟩ k hk
    cases k with
    | zero => simpa using h0
    | succ k =>
      rw [Nat.add_comm k, ← Nat.add_assoc, Nat.add_comm 1]
      exact h k (by simpa using hk)

/-- Settles O32: the canonical bytes decode to the instruction, at `IP` or behind their marker. -/
theorem stepRunsCanonicalBytes : Obligations.StepRunsCanonicalBytes := by
  intro s i hs hwf hi hmem
  refine ⟨fun hA => ?_, fun hA hM => ?_⟩
  · rw [encode_of_not_classA hA] at hmem
    obtain ⟨more, hread⟩ := readBytes_of_holds_encodeBody hmem
    obtain ⟨-, hd, -⟩ := bodyDecodesInBothPhases i more hwf hi
    exact stepRunsDecodedInstruction s i more hs (hread ▸ hd (firstByte_ne_markerByte hi hA)) hi
  · rw [encode_of_classA hA, holds_cons] at hmem
    obtain ⟨hm, hbody⟩ := hmem
    obtain ⟨more, hread⟩ := readBytes_of_holds_encodeBody hbody
    obtain ⟨hd, -, -⟩ := bodyDecodesInBothPhases i more hwf hi
    have hprefix : decode .boundary (s.mem.readBytes s.ip.toNat 5) = .ok .prefixByte (s.mem.readBytes (s.ip.toNat + 1) 4) := by
      rw [readBytes_eq_cons _ _ _ _ hm, decode_marker]
    obtain ⟨u, t, hu, ht, hstep⟩ := stepRunsPrefixedInstruction s i _ more hs hprefix hM (hread ▸ hd)
    cases hu
    exact ⟨t, ht, hstep⟩

/-- Settles O33: MOVI runs behind its marker, which has moved `IP` by 1. -/
theorem stepMoviSetsRegister : Obligations.StepMoviSetsRegister := by
  intro s d imm hs hM hmem
  obtain ⟨t, he, hstep⟩ := (stepRunsCanonicalBytes s (.movi d imm) hs rfl (by simp) hmem).2 rfl hM
  cases he
  refine ⟨_, hstep, ?_, fun r hr => ?_, ?_, ?_⟩
  · rw [reg_emitSnapshot, runClassA, writeBack, reg_advance, reg_setReg_self]
  · rw [reg_emitSnapshot, runClassA, writeBack, reg_advance, reg_setReg, if_neg hr]
    rfl
  · have hip := afterPrefixOf_ip_toNat s hs.bound
    have hmove := ip_add_toNat (afterPrefixOf s) 5 (hip ▸ hM) (by decide)
    rw [hip] at hmove
    rw [emitSnapshot_ip]
    exact hmove
  · rw [emitSnapshot_status]
    exact hs.running

/-! ### What a step does with its opcode byte -/

/-- Everything that a step whose opcode byte is `b` can do to the state `u` that fetches it: Classes A and B raise a fault or write
one register, `0xF0` halts, and every other byte is reported. -/
def OpcodeEffect (b : Byte) (u w : State) : Prop :=
  (1 < bodyLength b ∧ ((∃ k, w = raise k u) ∨ ∃ d v, w = (u.setReg d v).advance (BitVec.ofNat 32 (bodyLength b)))) ∨
  (b = 0xF0#8 ∧ w = haltRun u) ∨
  (isUnknownOpcode b = true ∧ w = reportUnknown b u)

theorem bodyLength_of_unknown (b : Byte) (h : isUnknownOpcode b = true) : bodyLength b = 1 := by revert b; decide

theorem bodyLength_firstByte_of_classA {i : Instr} (h : i.opClass = .classA) : bodyLength i.firstByte = 5 := by
  obtain ⟨imm, himm⟩ := operandBytes_of_classA h
  rw [bodyLength_firstByte (by rintro rfl; cases h), encodeBody, himm]
  rfl

theorem bodyLength_firstByte_of_classB {i : Instr} (h : i.opClass = .classB) : bodyLength i.firstByte = 2 := by
  cases i with
  | add d src | sub d src | mul d src | div d src | mov d src => simp [bodyLength, Instr.firstByte]
  | _ => cases h

/-- The bytes of no class and the reserved ones are the unknown opcodes (R50, R52). -/
theorem isUnknownOpcode_firstByte {i : Instr} (hwf : i.wellFormed = true) (h : i.opClass = .none ∨ ∃ c, i = .reservedC c) :
    isUnknownOpcode i.firstByte = true := by
  rcases h with h | ⟨c, rfl⟩
  · cases i with
    | unknown0 x | unknownB x | unknownC x | unknownD x | unknownE x => simp [isUnknownOpcode, Instr.firstByte]
    | _ => cases h
  · have hc : c ≠ 0#4 := by simpa [Instr.wellFormed] using hwf
    simp [isUnknownOpcode, Instr.firstByte, hc]

/-- An instruction has the effect of its opcode byte. -/
theorem opcodeEffect_exec {i : Instr} {u w : State} (hwf : i.wellFormed = true) (hi : i ≠ .prefixByte)
    (he : exec i u = .next w) : OpcodeEffect i.firstByte u w := by
  obtain ⟨w', he', hc⟩ := exec_cases i u
  obtain rfl : w = w' := by simpa [he] using he'
  rcases hc with ⟨h, -⟩ | ⟨d, v, n, hn, rfl⟩ | ⟨k, hk, rfl⟩ | ⟨rfl, rfl⟩ | ⟨h, rfl⟩
  · exact absurd h hi
  · obtain ⟨rfl, h⟩ | ⟨rfl, h⟩ := hn
    · have hl := bodyLength_firstByte_of_classA h
      exact .inl ⟨by omega, .inr ⟨d, v, by rw [hl]; rfl⟩⟩
    · have hl := bodyLength_firstByte_of_classB h
      exact .inl ⟨by omega, .inr ⟨d, v, by rw [hl]; rfl⟩⟩
  · have hl : 1 < bodyLength i.firstByte := by
      rcases hk with h | h
      · rw [bodyLength_firstByte_of_classA h]; decide
      · rw [bodyLength_firstByte_of_classB h]; decide
    exact .inl ⟨hl, .inl ⟨k, rfl⟩⟩
  · exact .inr (.inl ⟨rfl, rfl⟩)
  · exact .inr (.inr ⟨isUnknownOpcode_firstByte hwf h, rfl⟩)

/-- A step has the effect of its opcode byte, and then the snapshot. -/
theorem step_opcodeEffect {s t : State} {q : Nat} {b : Byte} (h : s.OpcodeAt q b) (ht : step s = .next t) :
    ∃ w, OpcodeEffect b (opcodeState s) w ∧ t = emitSnapshot w := by
  rcases decodesBody_decodeOpcode b (s.mem.readBytes (q + 1) 4) with ⟨i, rest, hd, hwf, hi, rfl, -⟩ | ⟨k, hd, hl⟩
  · obtain ⟨w, he, -⟩ := exec_cases i (opcodeState s)
    have hstep := step_of_opcode_decoded h hd he
    exact ⟨w, opcodeEffect_exec hwf hi he, by simpa [ht] using hstep⟩
  · have hstep := step_of_operand_missing h hd
    refine ⟨_, .inl ⟨by omega, .inl ⟨.memoryFault (q + k), rfl⟩⟩, ?_⟩
    rw [emitSnapshot_of_faulted _ _ rfl]
    simpa [ht] using hstep

@[simp] theorem opcodeState_status (s : State) : (opcodeState s).status = s.status := by
  unfold opcodeState; split <;> rfl

@[simp] theorem opcodeState_reports (s : State) : (opcodeState s).reports = s.reports := by
  unfold opcodeState; split <;> rfl

theorem bodyLength_le (b : Byte) : 1 ≤ bodyLength b ∧ bodyLength b ≤ 5 := by
  unfold bodyLength
  split_ifs <;> decide

/-- Settles O36: a fault and HALT leave `IP` at the opcode byte, every other effect moves it by the body's length. -/
theorem ipAdvanceOfStep : Obligations.IpAdvanceOfStep := by
  intro s t q b h ht
  obtain ⟨w, hw, rfl⟩ := step_opcodeEffect h ht
  have hq := opcodeState_ip h
  have hl := bodyLength_le b
  have hrun : (opcodeState s).status = .running := by simpa using h.1.running
  have hmove : ((opcodeState s).ip + BitVec.ofNat 32 (bodyLength b)).toNat = q + bodyLength b := by
    have hn : (BitVec.ofNat 32 (bodyLength b)).toNat = bodyLength b := by
      rw [BitVec.toNat_ofNat, Nat.mod_eq_of_lt (by omega)]
    have hqM : (opcodeState s).ip.toNat ≤ (opcodeState s).cfg.M := by
      rw [hq, opcodeState_cfg]; exact opcodeAt_le_memSize h
    rw [ip_add_toNat _ _ hqM (by omega), hq, hn]
  simp only [emitSnapshot_status, emitSnapshot_ip]
  rcases hw with ⟨-, ⟨k, rfl⟩ | ⟨d, v, rfl⟩⟩ | ⟨-, rfl⟩ | ⟨hb, rfl⟩
  · exact ⟨by simp, fun _ => hq⟩
  · exact ⟨fun _ => hmove, fun hst => absurd hrun hst⟩
  · exact ⟨by simp, fun _ => hq⟩
  · rw [bodyLength_of_unknown b hb] at hmove ⊢
    exact ⟨fun _ => hmove, fun hst => absurd hrun hst⟩

/-- Settles O46: the unknown opcode bytes are those of one byte other than `0xF0`, and only their effect reports. -/
theorem reportOfStep : Obligations.ReportOfStep := by
  intro s t q b h ht
  obtain ⟨w, hw, rfl⟩ := step_opcodeEffect h ht
  have hq : (opcodeState s).ip = BitVec.ofNat 32 q := by
    rw [← opcodeState_ip h, BitVec.ofNat_toNat, BitVec.setWidth_eq]
  have hlong (hl : 1 < bodyLength b) : isUnknownOpcode b = false := by
    by_contra hb
    rw [bodyLength_of_unknown b (by simpa using hb)] at hl
    omega
  rcases hw with ⟨hl, ⟨k, rfl⟩ | ⟨d, v, rfl⟩⟩ | ⟨rfl, rfl⟩ | ⟨hb, rfl⟩
  · simp [hlong hl]
  · simp [hlong hl]
  · simp [show isUnknownOpcode 0xF0#8 = false by decide]
  · exact ⟨by simp [hb, hq], fun _ => ⟨by simpa using h.1.running, fun r => by simp⟩⟩

/-! ### Halting (R110) -/

/-- A transition that halts from `Running` has fetched HALT. -/
theorem fetch_of_transition_halted {u w : State} (hr : u.status = .running) (h : transition u = .next w)
    (hw : w.status = .halted) : fetch u = .instr .halt := by
  rcases transition_cases u with ⟨i, hf, ht⟩ | ⟨a, -, ht⟩
  · obtain ⟨w', he, hc⟩ := exec_cases i u
    obtain rfl : w = w' := by simpa [ht, he] using h.symm
    rcases hc with ⟨-, rfl⟩ | ⟨d, v, n, -, rfl⟩ | ⟨k, -, rfl⟩ | ⟨rfl, -⟩ | ⟨-, rfl⟩
    case inr.inr.inr.inl => exact hf
    all_goals simp [hr] at hw
  · obtain rfl : w = raise (.memoryFault a) u := by simpa [h] using ht
    cases hw

/-- HALT is fetched from the byte `0xF0`, at an `IP` of at most `M`. -/
theorem read_of_fetch_halt {u : State} (h : fetch u = .instr .halt) :
    u.ip.toNat ≤ u.cfg.M ∧ u.mem.read u.ip.toNat = some 0xF0#8 := by
  obtain ⟨hM, rest, hd⟩ := fetch_eq_instr u _ h
  obtain ⟨-, hbytes, -⟩ := encodeOfDecodeIsBytes _ _ _ _ hd
  exact ⟨hM, read_of_readBytes_eq_cons _ _ _ _ _ hbytes⟩

/-- In phase `AfterPrefix` the byte `0xF0` is HALT (R64, R91). -/
theorem step_halt_of_afterPrefix {s : State} (hr : s.status = .running) (hp : s.phase = .afterPrefix)
    (hM : s.ip.toNat ≤ s.cfg.M) (hb : s.mem.read s.ip.toNat = some 0xF0#8) :
    step s = .next (emitSnapshot (haltRun s)) := by
  have hf : fetch s = .instr .halt := by
    refine fetch_of_decode s _ (s.mem.readBytes (s.ip.toNat + 1) 4) hM ?_
    rw [hp, readBytes_eq_cons _ _ _ _ hb, decode_afterPrefix]
    rfl
  exact step_of_fetch_instr hr hf (by simp) rfl

/-- Settles O47: only HALT sets the status, and it is fetched from `0xF0` only. -/
theorem haltedOnlyByHalt : Obligations.HaltedOnlyByHalt := by
  intro s t hr ht
  constructor
  · intro hst
    obtain ⟨w, rfl, -, hw | ⟨hs, hm, hw⟩⟩ := step_lastTransition_cases s t hr ht <;> rw [emitSnapshot_status] at hst
    · obtain ⟨hM, hb⟩ := read_of_fetch_halt (fetch_of_transition_halted hr hw hst)
      refine ⟨s.ip.toNat, ?_⟩
      cases hp : s.phase with
      | boundary => exact .inl ⟨⟨hr, hp, hM⟩, hb, .inl ⟨rfl, by decide⟩⟩
      | afterPrefix => exact .inr ⟨rfl, rfl, hM, hb⟩
    · obtain ⟨hM, hb⟩ := read_of_fetch_halt (fetch_of_transition_halted (u := afterPrefixOf s) hr hw hst)
      rw [afterPrefixOf_ip_toNat s hs.bound] at hM hb
      exact ⟨s.ip.toNat + 1, .inl ⟨hs, hb, .inr ⟨rfl, hm, hM⟩⟩⟩
  · rintro ⟨q, h | ⟨hp, rfl, hM, hb⟩⟩
    · obtain ⟨w, hw, rfl⟩ := step_opcodeEffect h ht
      rcases hw with ⟨hl, -⟩ | ⟨-, rfl⟩ | ⟨hb, -⟩
      · exact absurd hl (by decide)
      · simp
      · exact absurd hb (by decide)
    · have hstep := step_halt_of_afterPrefix hr hp hM hb
      obtain rfl : t = emitSnapshot (haltRun s) := by simpa [ht] using hstep
      simp

/-! ### Snapshots (R108) -/

/-- Settles O44: a step commutes with setting `DEBUG`, but for the snapshots. -/
theorem debugHasNoEffect : Obligations.DebugHasNoEffect := by
  intro s t dbg h
  obtain ⟨snaps, hstep⟩ := step_withUnread s t s.seg dbg h
  refine ⟨snaps, hstep.trans ?_⟩
  rw [← (step_keepsFixed s t h).seg]
  rfl

/-- No transition emits a snapshot. -/
theorem transition_snapshots {s t : State} (h : transition s = .next t) : t.snapshots = s.snapshots := by
  rcases transition_cases s with ⟨i, -, ht⟩ | ⟨a, -, ht⟩
  · obtain ⟨t', he, hc⟩ := exec_cases i s
    obtain rfl : t = t' := by simpa [ht, he] using h.symm
    rcases hc with ⟨-, rfl⟩ | ⟨d, v, n, -, rfl⟩ | ⟨k, -, rfl⟩ | ⟨-, rfl⟩ | ⟨-, rfl⟩ <;> rfl
  · obtain rfl : t = raise (.memoryFault a) s := by simpa [h] using ht
    rfl

/-- What the end of a step emits (R72, R108). -/
theorem emitSnapshot_snapshots (w : State) :
    (emitSnapshot w).snapshots = w.snapshots ++
      (if w.cfg.debug = true ∧ (w.status = .running ∨ w.status = .halted) then [w.snapshot] else []) := by
  cases hd : w.cfg.debug with
  | false => simp [emitSnapshot_of_debug_false w hd]
  | true =>
    cases hst : w.status with
    | faulted k => simp [emitSnapshot_of_faulted w k hst]
    | running | halted => simp [emitSnapshot_snapshots_of_debug w hd (by simp [hst])]

/-- Settles O45: the snapshot is the one of the end of the step, and shows the registers of its last transition. -/
theorem snapshotAfterEachStep : Obligations.SnapshotAfterEachStep := by
  intro s t _ h
  obtain ⟨u, w, hu, -, hw, rfl⟩ := step_lastTransition s t h
  have hus : u.snapshots = s.snapshots ∧ u.cfg = s.cfg := by rcases hu with rfl | ⟨-, rfl⟩ <;> exact ⟨rfl, rfl⟩
  rw [emitSnapshot_snapshots, transition_snapshots hw, (transition_keepsFixed u w hw).cfg, hus.1, hus.2]
  simp [State.snapshot]

end Sys2Proof.Machine

/-! ## The instructions: operands, the bytes of no class, and what raises each fault (R75 to R102) -/

namespace Sys2Proof.Machine

/-! ### The ALU and the image (R28, R30, R75, R76) -/

/-- Settles O56: `Wrap` raises nothing, and the word operations are those modulo `2^W`. -/
theorem aluFunctionsUnderWrap : Obligations.AluFunctionsUnderWrap := by
  intro a b
  refine ⟨⟨_, addW_value _ a b (.inl rfl), BitVec.toNat_add a b⟩, ⟨_, subW_value _ a b (.inl rfl), ?_⟩,
    ⟨_, mulW_value _ a b (.inl rfl), BitVec.toNat_mul a b⟩, fun hb => ⟨_, divW_value a b hb, BitVec.toNat_udiv, ?_⟩,
    divW_zero a⟩
  · rw [← BitVec.toNat_add, BitVec.sub_add_cancel]
  · rw [BitVec.toNat_udiv]
    exact Nat.div_le_self _ _

/-- Settles O57: reading an address is looking up that position of the byte sequence. -/
theorem imageReadsItsBytes : Obligations.ImageReadsItsBytes := by
  intro img a
  rw [read_ofBytes]
  exact ⟨ofBytes_length img, fun h => List.getElem?_eq_getElem h, List.getElem?_eq_none⟩

/-! ### Instructions without an operand, and the source equal to the destination -/

/-- Settles O12: `haltRun` sets the status and the phase alone. -/
theorem haltEndsRun : Obligations.HaltEndsRun := fun s =>
  ⟨rfl, haltRun s, rfl, haltRun_status s, haltRun_ip s, reg_haltRun s, keepsFixed_of_eq _ _ rfl rfl rfl, ⟨rfl, rfl⟩,
    haltRun_phase s⟩

/-- Settles O15: the prefix sets `IP` and the phase alone. -/
theorem prefixOnlyAdvances : Obligations.PrefixOnlyAdvances := fun s =>
  ⟨afterPrefixOf s, rfl, rfl, rfl, rfl, fun _ => rfl, keepsFixed_of_eq _ _ rfl rfl rfl, ⟨rfl, rfl⟩⟩

/-- Settles O14: each of the five is the report of the opcode byte that its high nibble and `x` make. -/
theorem noClassByteReportsAndAdvances : Obligations.NoClassByteReportsAndAdvances := by
  intro s x i h hi
  have hreport : ∃ op, h = 16 * op ∧ encode i = [opcodeByte (BitVec.ofNat 4 op) x] ∧
      exec i s = .next (reportUnknown (opcodeByte (BitVec.ofNat 4 op) x) s) := by
    simp only [List.mem_cons, Prod.mk.injEq, List.not_mem_nil, or_false] at hi
    rcases hi with ⟨rfl, rfl⟩ | ⟨rfl, rfl⟩ | ⟨rfl, rfl⟩ | ⟨rfl, rfl⟩ | ⟨rfl, rfl⟩
    · exact ⟨0x0, rfl, rfl, rfl⟩
    · exact ⟨0xB, rfl, rfl, rfl⟩
    · exact ⟨0xC, rfl, rfl, rfl⟩
    · exact ⟨0xD, rfl, rfl, rfl⟩
    · exact ⟨0xE, rfl, rfl, rfl⟩
  obtain ⟨op, rfl, henc, he⟩ := hreport
  rw [ofNat_eq_opcodeByte]
  exact ⟨henc, exec_reports_and_advances he⟩

/-- Settles O11: both operands are the old value of `Rd`, read before the write. -/
theorem sameRegisterOperands : Obligations.SameRegisterOperands := by
  intro s d src hsrc
  have hs : d.val = src.toNat := hsrc.symm
  refine ⟨?_, ?_, fun hd => ?_, fun hd => ?_, fun hovf => ⟨?_, ?_⟩⟩
  · exact exec_classB_assigned rfl hs (subW_value _ _ _ (.inr le_rfl)) (by rw [BitVec.sub_self]; rfl)
  · obtain ⟨t, ht, hassigned⟩ := exec_classB_assigned (i := .mov d src) (s := s) rfl hs rfl rfl
    refine ⟨t, ht, hassigned, fun r => ?_⟩
    by_cases hr : r = d
    · subst hr
      exact BitVec.eq_of_toNat_eq hassigned.value
    · exact hassigned.frame.regs r hr
  · refine exec_classB_assigned rfl hs (divW_value _ _ hd) ?_
    rw [BitVec.toNat_udiv, Nat.div_self]
    exact Nat.pos_of_ne_zero fun h0 => hd (BitVec.eq_of_toNat_eq h0)
  · refine ⟨_, rfl, ?_⟩
    rw [runClassB_raises s d d src _ _ hs (by rw [hd, divW_zero])]
    exact raised_raise s _
  · exact exec_classB_assigned rfl hs (addW_value _ _ _ (.inl hovf)) (by rw [BitVec.toNat_add, Nat.two_mul])
  · exact exec_classB_assigned rfl hs (mulW_value _ _ _ (.inl hovf)) (by rw [BitVec.toNat_mul, Nat.pow_two])

/-! ### Faults of fetching (R61, R62, R64) -/

/-- Settles O48: the fault of the first fetch is the whole step. -/
theorem boundCheckFaults : Obligations.BoundCheckFaults := fun s hr h =>
  ⟨_, step_of_fetch_raises s _ hr (fetch_memoryFault_ip s h), raised_raise s _⟩

/-- Settles O50: the fault is that of the fetch in the state that the prefix leaves. -/
theorem opcodeByteAfterPrefixFaults : Obligations.OpcodeByteAfterPrefixFaults := by
  intro s hs hm h
  have hip := afterPrefixOf_ip_toNat s hs.bound
  have hf : fetch (afterPrefixOf s) = .raises (.memoryFault (s.ip.toNat + 1)) := by
    rw [← hip] at h ⊢
    exact fetch_memoryFault_ip (afterPrefixOf s) h
  have ht : transition (opcodeState s) = .next (raise (.memoryFault (s.ip.toNat + 1)) (afterPrefixOf s)) := by
    rw [opcodeState_of_marker s hm, transition, hf]
  have hstep := step_of_transition_opcodeState s _ hs ht
  rw [emitSnapshot_of_faulted _ _ rfl] at hstep
  exact ⟨_, hstep, rfl, hip, fun _ => rfl, keepsFixed_of_eq _ _ rfl rfl rfl, ⟨rfl, rfl⟩⟩

/-! ### What raises each fault in an instruction (R96 to R102) -/

/-- The overflow policy raises `Overflow` alone, under `Fault` alone (R102). -/
theorem underPolicy_eq_raises {ovf : Ovf} {o : Bool} {a b : Nat} {k : FaultKind} (h : underPolicy ovf o a b = .raises k) :
    k = .overflow ∧ ovf = .fault := by
  unfold underPolicy at h
  split at h <;> cases h
  exact ⟨rfl, rfl⟩

/-- Division raises `DivideByZero` alone, by 0 alone (R101). -/
theorem divW_eq_raises (a b : Word) (k : FaultKind) : divW a b = .raises k ↔ k = .divideByZero ∧ b = 0 := by
  by_cases hb : b = 0
  · rw [hb, divW_zero]
    exact ⟨fun h => ⟨(AluResult.raises.inj h).symm, rfl⟩, fun ⟨hk, _⟩ => by rw [hk]⟩
  · rw [divW_value a b hb]
    exact ⟨fun h => (nomatch h), fun ⟨_, h0⟩ => absurd h0 hb⟩

section
variable {s : State} {d : RegId} {k : FaultKind}

theorem writeBack_faulted_iff (n : Word) (r : AluResult) (hr : s.status = .running) :
    (writeBack d n r s).status = .faulted k ↔ r = .raises k := by
  cases r <;> simp [writeBack, hr]

/-- A Class B instruction faults by its source byte, or by its operation on the source's value. -/
theorem runClassB_faulted_iff (src : Byte) (f : Word → AluResult) (hr : s.status = .running) :
    (runClassB d src f s).status = .faulted k ↔
      (15 < src.toNat ∧ k = .internalFault src) ∨ ∃ r : RegId, r.val = src.toNat ∧ f (s.reg r) = .raises k := by
  rcases runClassB_cases d src f s with ⟨hsrc, h⟩ | ⟨r, hsrc, h⟩
  · have hno : ¬ ∃ r : RegId, r.val = src.toNat ∧ f (s.reg r) = .raises k := by
      rintro ⟨r, hrs, -⟩
      omega
    rw [h, raise_status, or_iff_left hno]
    simp [eq_comm]
    omega
  · rw [h, writeBack_faulted_iff 2 _ hr]
    constructor
    · exact fun hf => .inr ⟨r, hsrc, hf⟩
    · rintro (⟨hlt, -⟩ | ⟨r', hsrc', hf⟩)
      · omega
      · obtain rfl : r' = r := Fin.ext (by omega)
        exact hf

end

/-- What has to hold where an instruction raises a fault of this kind (R96, R98, R100 to R102). -/
def FaultCause (i : Instr) (s : State) : FaultKind → Prop
  | .memoryFault _ => False
  | .internalFault src =>
    15 < src.toNat ∧ ∃ d, i = .add d src ∨ i = .sub d src ∨ i = .mul d src ∨ i = .div d src ∨ i = .mov d src
  | .divideByZero =>
    (∃ d, i = .divi d 0) ∨ (∃ (d r : RegId) (src : Byte), i = .div d src ∧ r.val = src.toNat ∧ s.reg r = 0)
  | .overflow =>
    s.cfg.ovf = .fault ∧
      ∃ d, (∃ v, i = .addi d v ∨ i = .subi d v ∨ i = .muli d v) ∨ (∃ src, i = .add d src ∨ i = .sub d src ∨ i = .mul d src)

/-- A fault in an instruction has its cause. -/
theorem faultCause_of_faulted {i : Instr} {s t : State} {k : FaultKind} (hr : s.status = .running) (h : exec i s = .next t)
    (hk : t.status = .faulted k) : FaultCause i s k := by
  cases i with
  | prefixByte | movi d imm | reservedC c | unknown0 x | unknownB x | unknownC x | unknownD x | unknownE x =>
    cases h
    cases hr.symm.trans hk
  | halt =>
    cases h
    cases hk
  | addi d imm | subi d imm | muli d imm =>
    cases h
    obtain ⟨rfl, hovf⟩ := underPolicy_eq_raises ((writeBack_faulted_iff 5 _ hr).mp hk)
    exact ⟨hovf, d, .inl ⟨imm, by simp⟩⟩
  | divi d imm =>
    cases h
    obtain ⟨rfl, rfl⟩ := (divW_eq_raises _ _ _).mp ((writeBack_faulted_iff 5 _ hr).mp hk)
    exact .inl ⟨d, rfl⟩
  | add d src | sub d src | mul d src =>
    cases h
    rcases (runClassB_faulted_iff src _ hr).mp hk with ⟨hsrc, rfl⟩ | ⟨r, -, hf⟩
    · exact ⟨hsrc, d, by simp⟩
    · obtain ⟨rfl, hovf⟩ := underPolicy_eq_raises hf
      exact ⟨hovf, d, .inr ⟨src, by simp⟩⟩
  | div d src =>
    cases h
    rcases (runClassB_faulted_iff src _ hr).mp hk with ⟨hsrc, rfl⟩ | ⟨r, hrs, hf⟩
    · exact ⟨hsrc, d, by simp⟩
    · obtain ⟨rfl, h0⟩ := (divW_eq_raises _ _ _).mp hf
      exact .inr ⟨d, r, src, rfl, hrs, h0⟩
  | mov d src =>
    cases h
    rcases (runClassB_faulted_iff src _ hr).mp hk with ⟨hsrc, rfl⟩ | ⟨r, -, hf⟩
    · exact ⟨hsrc, d, by simp⟩
    · cases hf

/-- A source byte above 15 and a zero divisor raise their fault. -/
theorem faulted_of_faultCause {i : Instr} {s t : State} {k : FaultKind} (hr : s.status = .running) (h : exec i s = .next t)
    (hk : k ≠ .overflow) (hc : FaultCause i s k) : t.status = .faulted k := by
  cases k with
  | memoryFault a => cases hc
  | internalFault src =>
    obtain ⟨hsrc, d, rfl | rfl | rfl | rfl | rfl⟩ := hc <;> cases h <;>
      exact (runClassB_faulted_iff src _ hr).mpr (.inl ⟨hsrc, rfl⟩)
  | divideByZero =>
    rcases hc with ⟨d, rfl⟩ | ⟨d, r, src, rfl, hrs, h0⟩ <;> cases h
    · exact (writeBack_faulted_iff 5 _ hr).mpr (divW_zero _)
    · exact (runClassB_faulted_iff src _ hr).mpr (.inr ⟨r, hrs, (divW_eq_raises _ _ _).mpr ⟨rfl, h0⟩⟩)
  | overflow => contradiction

/-- Settles O53: each fault has its cause, and each cause but that of `Overflow` its fault. -/
theorem faultCausesOfInstructions : Obligations.FaultCausesOfInstructions := by
  intro i s t hr h
  have hcause (k : FaultKind) : t.status = .faulted k → FaultCause i s k := faultCause_of_faulted hr h
  exact ⟨fun a hk => hcause _ hk, fun src => ⟨hcause _, faulted_of_faultCause (k := .internalFault src) hr h (by simp)⟩,
    ⟨hcause _, faulted_of_faultCause (k := .divideByZero) hr h (by simp)⟩, hcause _⟩

/-- Settles O54: of all that an instruction can do from `Running`, only `raise` ends `Faulted`. -/
theorem faultLeavesStateAlone : Obligations.FaultLeavesStateAlone := by
  intro i s t k hr h hk
  obtain ⟨t', he, hc⟩ := exec_cases i s
  obtain rfl : t = t' := by simpa [h] using he
  rcases hc with ⟨-, rfl⟩ | ⟨d, v, n, -, rfl⟩ | ⟨k', -, rfl⟩ | ⟨-, rfl⟩ | ⟨-, rfl⟩
  case inr.inr.inl =>
    obtain rfl : k' = k := by simpa using hk
    exact raised_raise s k'
  all_goals simp [hr] at hk

/-- Settles O55: fetching raises `MemoryFault` only, and an instruction's `Overflow` has `OVF = Fault` as its cause. -/
theorem noOverflowUnderWrap : Obligations.NoOverflowUnderWrap := by
  intro s t _ hovf h hk
  obtain ⟨u, w, hu, hr, hw, rfl⟩ := step_lastTransition s t h
  rw [emitSnapshot_status] at hk
  have hus : u.status = .running ∧ u.cfg.ovf = .wrap := by rcases hu with rfl | ⟨-, rfl⟩ <;> exact ⟨hr, hovf⟩
  rcases transition_cases u with ⟨i, -, ht⟩ | ⟨a, -, ht⟩
  · have hfault := (faultCause_of_faulted hus.1 (ht ▸ hw) hk).1
    cases hus.2.symm.trans hfault
  · obtain rfl : w = raise (.memoryFault a) u := by simpa [hw] using ht
    cases hk

end Sys2Proof.Machine
